-- ==== Sys2Proof/Word.lean ====
section
/-! DEFINITION. The two widths of PH32: 32-bit values and 8-bit bytes (00_scope.md R7, R9). -/

namespace Sys2Proof

/-- A 32-bit unsigned value: every operand, working and result register, every buffer address (R7). -/
abbrev Word := BitVec 32

/-- One byte of the buffer space (R50). -/
abbrev Byte := BitVec 8

end Sys2Proof
end

