-- ==== Sys2Proof/Config.lean ====
section
/-! DEFINITION. What an instance of PH32 fixes (00_scope.md R7) and the value the spec leaves free (R144). -/

namespace Sys2Proof

/-- BYTE_ORDER: how four buffer bytes form the bulk word (R7, R52). -/
inductive ByteOrder where
  | le
  | be
  deriving DecidableEq, Repr

/-- The byte order of the reference instance (R7, R52; log 3). -/
def Config.referenceByteOrder : ByteOrder := .le

/-- REG_BASE of the instance that State.reset names: any address will do, no rule depends on it (R7, R58; log 17). -/
def Config.referenceRegBase : Nat := 0

/-- The word that the n-th read of DIGEST outside DONE returns: unspecified, "drawn anew at each read"
(R144, U5). It has no body, so nothing can be proved of its value (log 7). -/
opaque Config.freeDigest : Nat → Word

end Sys2Proof
end

