-- ==== Sys2Proof/Syntax.lean ====
section
/-! DEFINITION. The operations of PH32, one constructor for each row of spec/opcode_table.json, the phases that
select the sequencer's operations, and a host access as the bus carries it. -/

namespace Sys2Proof

/-- The eight values of PHASE (10_state.md R31, 30_encoding.md R76). -/
inductive Phase where
  | idle
  | bulk
  | tail
  | tmix
  | lmix
  | aval
  | done
  | fault
  deriving DecidableEq, Repr

/-- One access of the host as its bus carries it (R71, R60): direction, address on that bus, width in
bytes and, for a write, the data word. Every access is expressible, the malformed ones of R79 too. -/
structure Access where
  we : Bool
  addr : Nat
  bytes : Nat
  wdata : Word
  deriving DecidableEq, Repr

/-- The operations: sixteen HOST rows (R72), two CTRL rows (R73), eight PHASE rows (R76). A write carries its
data word; a CTRL command carries the whole word written, reserved bits included. -/
inductive Instr where
  | wrSeed (wdata : Word)
  | wrLen (wdata : Word)
  | wrAddr (wdata : Word)
  | wrCtrl (wdata : Word)
  | wrStatus (wdata : Word)
  | wrDigest (wdata : Word)
  | wrCfg (wdata : Word)
  | wrRsvd (wdata : Word)
  | rdSeed
  | rdLen
  | rdAddr
  | rdCtrl
  | rdStatus
  | rdDigest
  | rdCfg
  | rdRsvd
  | start (word : Word)
  | ctrlNop (word : Word)
  | idle
  | bulk
  | tail
  | tmix
  | lmix
  | aval
  | done
  | fault
  deriving DecidableEq, Repr

end Sys2Proof
end

