-- ==== Sys2Proof/Machine/State.lean ====
section
/-! DEFINITION. The state of one PH32 engine (10_state.md R20) with the platform around it, as plain data, and the
state after reset (R43). -/

namespace Sys2Proof.Machine

/-- Why a step can stop. Taking an exception is not a stop: InvalidArgument is a next state (R176). -/
inductive Fault where
  /-- Raised by BULK when `PTR + 4` exceeds 2^32, where `MemRead` is not defined (R51); R30 excludes it from every
  run. Safe: the model stops where the spec says nothing (log 8). -/
  | readOutsideBufferSpace
  deriving DecidableEq, Repr

/-- Why a step can be refused. -/
inductive Refusal where
  /-- Raised by `exec` for an operation that has no meaning yet; none is left. Safe. -/
  | notModelled (mnemonic : String)
  deriving DecidableEq, Repr

/-- The causes of InvalidArgument (60_exceptions.md R170). -/
inductive Cause where
  | iaRange
  | iaRead
  deriving DecidableEq, Repr

/-- The platform's memory as the read port shows it (R51): the byte of each `Readable` address, by rising address.
An unlisted address is not `Readable`, so `Mem` and `Readable` are this one list (log 2). -/
abbrev Memory := List Host.Cell

/-- The canonical form of a memory: addresses strictly rising, inside the buffer space of R50. -/
abbrev Memory.wf (m : Memory) : Prop :=
  m.Pairwise (fun c d => c.1 < d.1) ∧ ∀ c ∈ m, c.1 < 4294967296

/-- One request on the read port and its answer: the bytes, or none for ReadFault (R51, R84). -/
structure BusRead where
  addr : Nat
  size : Nat
  answer : Option (List Byte)
  deriving DecidableEq, Repr

/-- A turn of one of the agents of R15, or an event of the platform. -/
inductive Event where
  /-- the sequencer takes its step -/
  | sequencer
  /-- the host makes one access (R130) -/
  | host (access : Access)
  /-- the host writes this word to CTRL: the CTRL format of R70, the line START of R82 (log 15) -/
  | command (word : Word)
  /-- the platform resets the engine (R190) -/
  | reset
  /-- the read port's answer at one address changes: a byte, or not readable (R61, R192, U13) -/
  | memory (addr : Word) (answer : Option Byte)
  deriving DecidableEq, Repr

/-- The registers of R20, the instance parameters of R7 held as data, and the model's own fields: `inputs`, `rdata`,
`reads` and `draws` (INVENTORY.md, State). -/
structure State where
  seed : Word
  len : Word
  addr : Word
  h : Word
  k : Word
  t : Word
  l : Word
  rem : Word
  ptr : Word
  phase : Phase
  ecode : BitVec 4
  digest : Word
  byteOrder : ByteOrder
  regBase : Nat
  mem : Memory
  inputs : List Event
  rdata : Word
  reads : List BusRead
  draws : Nat
  deriving DecidableEq, Repr

/-- The state after reset (R43). H, K, T, L, REM, PTR and DIGEST are unspecified there; the model names 0 for each
(log 4). The platform shows no readable byte and nothing is about to happen. -/
def State.reset : State where
  seed := 0
  len := 0
  addr := 0
  h := 0
  k := 0
  t := 0
  l := 0
  rem := 0
  ptr := 0
  phase := .idle
  ecode := 0
  digest := 0
  byteOrder := Config.referenceByteOrder
  regBase := Config.referenceRegBase
  mem := []
  inputs := []
  rdata := 0
  reads := []
  draws := 0

end Sys2Proof.Machine
end

