-- ==== Sys2Proof/Machine/Flags.lean ====
section
/-! DEFINITION. The status flags and the two computed host words, STATUS (10_state.md R33) and CFG (R35). PH32 has no
condition codes (R32). -/

namespace Sys2Proof.Machine

/-- The busy phases (R33, R16). -/
def busy : Phase → Bool
  | .idle => false
  | .bulk => true
  | .tail => true
  | .tmix => true
  | .lmix => true
  | .aval => true
  | .done => false
  | .fault => false

/-- DONE, bit 1 of STATUS (R33). -/
def doneFlag (p : Phase) : Bool := p = .done

/-- ERR, bit 2 of STATUS (R33). -/
def errFlag (p : Phase) : Bool := p = .fault

/-- The STATUS word `{0[31:8], ECODE, 0, ERR, DONE, BUSY}` (R33, R74). -/
def statusWord (p : Phase) (ecode : BitVec 4) : Word :=
  (ecode.setWidth 32 <<< 4) ||| ((BitVec.ofBool (errFlag p)).setWidth 32 <<< 2)
    ||| ((BitVec.ofBool (doneFlag p)).setWidth 32 <<< 1) ||| (BitVec.ofBool (busy p)).setWidth 32

/-- The CFG word: bit 0 is BE (R35, R75). -/
def cfgWord : ByteOrder → Word
  | .le => 0x00000000#32
  | .be => 0x00000001#32

/-- The ECODE of each cause (R170, R176). -/
def causeCode : Cause → BitVec 4
  | .iaRange => 1#4
  | .iaRead => 2#4

end Sys2Proof.Machine
end

