-- ==== Sys2Proof/Machine/Ops.lean ====
section
/-! DEFINITION. The named operations over memory and registers: the platform's bytes, the read primitive
(20_memory.md R51), fault entry (60_exceptions.md R176) and the START that leaves FAULT (R177), reset (R190), and
the two things a host access can do. -/

namespace Sys2Proof.Machine

/-- The outcome of one operation or step. -/
abbrev Result := Host.Outcome State Fault Refusal

/-! ### The platform's memory -/

/-- How many byte addresses the buffer space has (R50). -/
def spaceSize : Nat := 4294967296

/-- The byte the read port shows at an address, none where the address is not `Readable` (R51). -/
def Memory.read : Memory → Nat → Option Byte
  | [], _ => none
  | (a, b) :: m, x => if a = x then some b else Memory.read m x

/-- The cell of an answer in front of a list: no cell for "not readable". -/
def Memory.cell (x : Nat) (v : Option Byte) (m : Memory) : Memory :=
  match v with
  | none => m
  | some b => (x, b) :: m

/-- What the read port shows at one address is replaced (R61, R192); the canonical form is kept. -/
def Memory.set : Memory → Nat → Option Byte → Memory
  | [], x, v => Memory.cell x v []
  | (a, b) :: m, x, v =>
    if x < a then Memory.cell x v ((a, b) :: m)
    else if x = a then Memory.cell x v m
    else (a, b) :: Memory.set m x v

/-- The `n` bytes from an address up, or none if one of them is not `Readable` (R51). -/
def readBytes (m : Memory) (a : Nat) : Nat → Option (List Byte)
  | 0 => some []
  | n + 1 =>
    match m.read a, readBytes m (a + 1) n with
    | some b, some bs => some (b :: bs)
    | _, _ => none

/-- One request on the read port as the platform sees it, with the answer it gives (R51, R84). -/
def busRead (m : Memory) (a n : Nat) : BusRead := ⟨a, n, readBytes m a n⟩

/-- A request made: it joins the engine's sequence of memory reads (R56, R204; log 6). -/
def State.logRead (r : BusRead) (s : State) : State := { s with reads := s.reads ++ [r] }

/-! ### The exception -/

/-- Fault entry (R176): PHASE and ECODE, and no other register. -/
def enterFault (c : Cause) (s : State) : State := { s with phase := .fault, ecode := causeCode c }

/-- P1, the range test of START on the unbounded sum (R171, R95). -/
def rangeOk (addr len : Word) : Bool := addr.toNat + len.toNat ≤ spaceSize

/-- The accepted START's writes (R138), the document's Init; it is also the one way out of FAULT but reset (R177). -/
def beginRun (s : State) : State :=
  { s with ecode := 0, h := s.seed, l := s.len, rem := s.len, ptr := s.addr, phase := .bulk }

/-- The START command: accepted in a hold state, where the range test decides (R138, R171), ignored without trace
while busy (R139). -/
def startCommand (s : State) : State :=
  if busy s.phase then s
  else if rangeOk s.addr s.len then beginRun s
  else enterFault .iaRange s

/-! ### The host's access -/

/-- A host read returns a word and changes nothing else (R130; `rdata`: log 5). -/
def State.returnWord (v : Word) (s : State) : State := { s with rdata := v }

/-- RD.DIGEST outside DONE returns a word nothing constrains, a new one at each read (R144, U5; log 7). -/
def State.returnFree (s : State) : State :=
  { s with rdata := Config.freeDigest s.draws, draws := s.draws + 1 }

/-- An access that is no PH32 operation: a read returns 0, a write is ignored (R79, R60; log 9). -/
def unmatchedAccess (a : Access) (s : State) : State :=
  if a.we then s else s.returnWord 0

/-! ### The platform's events -/

/-- Reset (R190): every register takes its value of R43; BYTE_ORDER and REG_BASE, the platform's memory, what
is still to come and the model's record of what was seen stay (log 4). -/
def platformReset (s : State) : State :=
  { State.reset with
    byteOrder := s.byteOrder, regBase := s.regBase, mem := s.mem, inputs := s.inputs, rdata := s.rdata
    reads := s.reads, draws := s.draws }

/-- The read port's answer at an address changes (R61, U13; log 2). -/
def changeMemory (a : Word) (v : Option Byte) (s : State) : State :=
  { s with mem := s.mem.set a.toNat v }

/-- The turn that is taken leaves the list of turns. -/
def State.take (rest : List Event) (s : State) : State := { s with inputs := rest }

end Sys2Proof.Machine
end

