-- ==== Sys2Proof/Machine/Command.lean ====
section
/-! DEFINITION. The two commands of the CTRL word (30_encoding.md R73): START (44_host_interface.md R138, R139) and
CTRL.NOP (R140). Reserved bits of the word are ignored (R79). -/

namespace Sys2Proof.Machine

/-- START: accepted in IDLE, DONE and FAULT, ignored while busy (R138, R139, R171). The word is not looked at, on an
ill-formed term either (log 18). -/
def execStart (_word : Word) (s : State) : Result := .next (startCommand s)

/-- CTRL.NOP changes nothing (R140). -/
def execCtrlNop (_word : Word) (s : State) : Result := .next s

end Sys2Proof.Machine
end

