-- ==== Sys2Proof/Machine/HostPort.lean ====
section
/-! DEFINITION. The sixteen host operations on the register block (44_host_interface.md R130 to R149), each one atomic
step that takes effect in any phase. -/

namespace Sys2Proof.Machine

/-- WR.SEED: `SEED <- wdata` (R131); a run in progress does not see it (R133). -/
def execWrSeed (wdata : Word) (s : State) : Result := .next { s with seed := wdata }

/-- WR.LEN: `LEN <- wdata` (R132, R133). -/
def execWrLen (wdata : Word) (s : State) : Result := .next { s with len := wdata }

/-- WR.ADDR: `ADDR <- wdata` (R134, R133). -/
def execWrAddr (wdata : Word) (s : State) : Result := .next { s with addr := wdata }

/-- WR.CTRL: bit 0 of the word selects START or no command (R73, R138, R139, R140). -/
def execWrCtrl (wdata : Word) (s : State) : Result :=
  .next (if wdata.getLsbD 0 then startCommand s else s)

/-- WR.STATUS is ignored (R143). -/
def execWrStatus (_wdata : Word) (s : State) : Result := .next s

/-- WR.DIGEST is ignored (R145). -/
def execWrDigest (_wdata : Word) (s : State) : Result := .next s

/-- WR.CFG is ignored (R147). -/
def execWrCfg (_wdata : Word) (s : State) : Result := .next s

/-- WR.RSVD is ignored (R149). -/
def execWrRsvd (_wdata : Word) (s : State) : Result := .next s

/-- RD.SEED returns SEED (R135). -/
def execRdSeed (s : State) : Result := .next (s.returnWord s.seed)

/-- RD.LEN returns the operand register LEN, not L and not REM (R136). -/
def execRdLen (s : State) : Result := .next (s.returnWord s.len)

/-- RD.ADDR returns the operand register ADDR, not PTR (R137). -/
def execRdAddr (s : State) : Result := .next (s.returnWord s.addr)

/-- RD.CTRL returns 0: CTRL stores nothing (R141, R34). -/
def execRdCtrl (s : State) : Result := .next (s.returnWord 0)

/-- RD.STATUS returns the word of R33, computed at this step (R142). -/
def execRdStatus (s : State) : Result := .next (s.returnWord (statusWord s.phase s.ecode))

/-- RD.DIGEST returns DIGEST in DONE and an unspecified word elsewhere (R144). -/
def execRdDigest (s : State) : Result :=
  .next (if s.phase = .done then s.returnWord s.digest else s.returnFree)

/-- RD.CFG reports the byte order (R146, R35). -/
def execRdCfg (s : State) : Result := .next (s.returnWord (cfgWord s.byteOrder))

/-- RD.RSVD returns 0 (R148). -/
def execRdRsvd (s : State) : Result := .next (s.returnWord 0)

end Sys2Proof.Machine
end

