-- ==== Sys2Proof/Machine/Mix.lean ====
section
/-! DEFINITION. The datapath functions MIX (40_mix_primitive.md R90) and FMIX (43_length_final.md R122) with the
hardwired constants of 10_state.md R21. -/

namespace Sys2Proof.Machine

/-- The multiplier `M` (R7, R21). -/
def multiplier : Word := 0x5bd1e995#32

/-- `a ^ (a >> n)`, the shift logical (R10, R94). -/
def xorShift (a : Word) (n : Nat) : Word := a ^^^ (a >>> n)

/-- `MIXK(k)`, the self-mixed key: steps 1 to 3 of the primitive (R90). -/
def mixK (k : Word) : Word := xorShift (k * multiplier) 24 * multiplier

/-- `MIXH(h, k)`, the new accumulator: steps 4 and 5 (R90). -/
def mixH (h k : Word) : Word := (h * multiplier) ^^^ mixK k

/-- `MIX(h, k)`: the pair `(h', k')` (R90), the one form every call site uses (R91). -/
def mix (h k : Word) : Word × Word := (mixH h k, mixK k)

/-- `FMIX(h)`, the avalanche function (R122). -/
def fmix (h : Word) : Word := xorShift (xorShift h 13 * multiplier) 15

end Sys2Proof.Machine
end

