-- ==== Sys2Proof/Machine/Operands.lean ====
section
/-! DEFINITION. The two values assembled from buffer bytes (30_encoding.md R78): the bulk word WORD (20_memory.md R52)
and the tail word TAILPACK (42_tail.md R110). -/

namespace Sys2Proof.Machine

/-- `zext_32(b[i])` (R10). Sequences are as long as their use needs, so the default byte is never met there. -/
def byteAt (b : List Byte) (i : Nat) : Word := (b.getD i 0).setWidth 32

/-- `WORD(b)` of the four bytes of one bulk read, in the instance's byte order (R52). -/
def word (o : ByteOrder) (b : List Byte) : Word :=
  match o with
  | .le => byteAt b 0 ||| byteAt b 1 <<< 8 ||| byteAt b 2 <<< 16 ||| byteAt b 3 <<< 24
  | .be => byteAt b 3 ||| byteAt b 2 <<< 8 ||| byteAt b 1 <<< 16 ||| byteAt b 0 <<< 24

/-- One lane of the tail word: `t ^ (zext_32(byte) << 8·offset)` (R110). -/
def tailLane (t : Word) (offset : Nat) (b : Word) : Word := t ^^^ (b <<< (8 * offset))

/-- `TAILPACK(c, y)`: the three cases in descending order, each including all lower ones (R110). -/
def tailPack (c : Nat) (y : List Byte) : Word :=
  let t2 := if 3 ≤ c then tailLane 0 2 (byteAt y 2) else 0
  let t1 := if 2 ≤ c then tailLane t2 1 (byteAt y 1) else t2
  if 1 ≤ c then tailLane t1 0 (byteAt y 0) else t1

end Sys2Proof.Machine
end

