-- ==== Sys2Proof/Machine/Sequencer.lean ====
section
/-! DEFINITION. The sequencer's operations, one for each PHASE value (30_encoding.md R76): BULK (41_bulk.md R100), TAIL
(42_tail.md R111), TMIX, LMIX, AVAL and the hold states (43_length_final.md R120 to R127). -/

namespace Sys2Proof.Machine

/-- The writes of a consuming BULK step, given the four bytes read (R100). -/
def consumeWord (b : List Byte) (s : State) : State :=
  let w := word s.byteOrder b
  { s with h := (mix s.h w).1, k := (mix s.h w).2, ptr := s.ptr + 4, rem := s.rem - 4, phase := .bulk }

/-- The consuming arm of BULK (R100): one 4-byte request at PTR, whose refusal is IA_READ (R172). A request beyond
the top of the buffer space is none (R51; log 8). -/
def bulkConsume (s : State) : Result :=
  let r := busRead s.mem s.ptr.toNat 4
  if spaceSize < s.ptr.toNat + 4 then .fault .readOutsideBufferSpace
  else
    match r.answer with
    | some b => .next (consumeWord b (s.logRead r))
    | none => .next (enterFault .iaRead (s.logRead r))

/-- BULK: one bulk iteration while REM ≥ 4, else the exit to TAIL (R100). -/
def execBulk (s : State) : Result :=
  if 4 ≤ s.rem.toNat then bulkConsume s else .next { s with phase := .tail }

/-- Where TAIL stands between its reads: the tail word so far, or the refusal that ended it. -/
inductive TailStep where
  | packed (t : Word) (s : State)
  | refused (s : State)
  deriving DecidableEq, Repr

/-- One conditional read of TAIL (R111): the byte at `PTR + offset`, asked for only when REM exceeds the offset,
and only when no earlier read was refused (R175). The address is a 32-bit sum (R10; log 16). -/
def tailByte (offset : Nat) : TailStep → TailStep
  | .refused s => .refused s
  | .packed t s =>
    if offset < s.rem.toNat then
      let r := busRead s.mem (s.ptr + BitVec.ofNat 32 offset).toNat 1
      match r.answer with
      | some b => .packed (tailLane t offset (byteAt b 0)) (s.logRead r)
      | none => .refused (s.logRead r)
    else .packed t s

/-- The reads of TAIL at offsets 2, 1 and 0, in that order (R111, R56). -/
def tailReads (s : State) : TailStep :=
  tailByte 0 (tailByte 1 (tailByte 2 (.packed 0 s)))

/-- TAIL: the 0 to 3 remaining bytes packed into T (R111), or IA_READ in place of every write (R172), T's
included (R176; log 13). -/
def execTail (s : State) : Result :=
  match tailReads s with
  | .packed t s' => .next { s' with t := t, phase := .tmix }
  | .refused s' => .next (enterFault .iaRead s')

/-- TMIX, the tail fold: `(H, T) <- MIX(H, T)` (R120). -/
def execTmix (s : State) : Result :=
  .next { s with h := (mix s.h s.t).1, t := (mix s.h s.t).2, phase := .lmix }

/-- LMIX, the length fold: `(H, L) <- MIX(H, L)` (R121). -/
def execLmix (s : State) : Result :=
  .next { s with h := (mix s.h s.l).1, l := (mix s.h s.l).2, phase := .aval }

/-- AVAL: H and DIGEST take FMIX of the H read at the start of the step (R123). -/
def execAval (s : State) : Result :=
  .next { s with h := fmix s.h, digest := fmix s.h, phase := .done }

/-- IDLE: the sequencer has no step, so its turn changes nothing (R124, R81). -/
def execIdle (s : State) : Result := .next s

/-- DONE: the sequencer has no step (R126). -/
def execDone (s : State) : Result := .next s

/-- FAULT: the sequencer has no step (R127). -/
def execFault (s : State) : Result := .next s

end Sys2Proof.Machine
end

