-- ==== Sys2Proof/Machine/Dispatch.lean ====
section
/-! DEFINITION. One arm for each operation of spec/opcode_table.json. -/

namespace Sys2Proof.Machine

/-- The meaning of each operation. -/
def exec (i : Instr) (s : State) : Host.Outcome State Fault Refusal :=
  match i with
  | .wrSeed wdata => Sys2Proof.Machine.execWrSeed wdata s
  | .wrLen wdata => Sys2Proof.Machine.execWrLen wdata s
  | .wrAddr wdata => Sys2Proof.Machine.execWrAddr wdata s
  | .wrCtrl wdata => Sys2Proof.Machine.execWrCtrl wdata s
  | .wrStatus wdata => Sys2Proof.Machine.execWrStatus wdata s
  | .wrDigest wdata => Sys2Proof.Machine.execWrDigest wdata s
  | .wrCfg wdata => Sys2Proof.Machine.execWrCfg wdata s
  | .wrRsvd wdata => Sys2Proof.Machine.execWrRsvd wdata s
  | .rdSeed => Sys2Proof.Machine.execRdSeed s
  | .rdLen => Sys2Proof.Machine.execRdLen s
  | .rdAddr => Sys2Proof.Machine.execRdAddr s
  | .rdCtrl => Sys2Proof.Machine.execRdCtrl s
  | .rdStatus => Sys2Proof.Machine.execRdStatus s
  | .rdDigest => Sys2Proof.Machine.execRdDigest s
  | .rdCfg => Sys2Proof.Machine.execRdCfg s
  | .rdRsvd => Sys2Proof.Machine.execRdRsvd s
  | .start word => Sys2Proof.Machine.execStart word s
  | .ctrlNop word => Sys2Proof.Machine.execCtrlNop word s
  | .idle => Sys2Proof.Machine.execIdle s
  | .bulk => Sys2Proof.Machine.execBulk s
  | .tail => Sys2Proof.Machine.execTail s
  | .tmix => Sys2Proof.Machine.execTmix s
  | .lmix => Sys2Proof.Machine.execLmix s
  | .aval => Sys2Proof.Machine.execAval s
  | .done => Sys2Proof.Machine.execDone s
  | .fault => Sys2Proof.Machine.execFault s

end Sys2Proof.Machine
end

