-- ==== Sys2Proof/WellFormed.lean ====
section
/-! DEFINITION. Which terms of `Instr` some encoding stands for: the CTRL rows fix bit 0 of their word (R73). -/

namespace Sys2Proof

/-- A START command's word has bit 0 set, a CTRL.NOP's has it clear (R73); every other term is well formed,
since no other field is constrained (R77, R80). -/
def Instr.wellFormed : Instr → Bool
  | .wrSeed _ => true
  | .wrLen _ => true
  | .wrAddr _ => true
  | .wrCtrl _ => true
  | .wrStatus _ => true
  | .wrDigest _ => true
  | .wrCfg _ => true
  | .wrRsvd _ => true
  | .rdSeed => true
  | .rdLen => true
  | .rdAddr => true
  | .rdCtrl => true
  | .rdStatus => true
  | .rdDigest => true
  | .rdCfg => true
  | .rdRsvd => true
  | .start word => word.getLsbD 0
  | .ctrlNop word => !word.getLsbD 0
  | .idle => true
  | .bulk => true
  | .tail => true
  | .tmix => true
  | .lmix => true
  | .aval => true
  | .done => true
  | .fault => true

end Sys2Proof
end

