-- ==== Sys2Proof/Decode.lean ====
section
/-! DEFINITION. The three encoded things of PH32 (30_encoding.md R70): the HOST header with its data word, the CTRL
word and the PHASE code; their decoder, total and rejecting by name, and the encoder beside it. -/

namespace Sys2Proof

/-- One encoded operation, in the format that encodes it (R70). -/
inductive OpWord where
  | host (header : BitVec 6) (wdata : Word)
  | ctrl (word : Word)
  | phase (code : BitVec 3)
  deriving DecidableEq, Repr

/-- Why a host access is "not a PH32 operation" (R79, third row; R60). -/
inductive DecodeError where
  /-- `offset[1:0]` is not 0. -/
  | misalignedOffset
  /-- the address lies below REG_BASE, so it has no offset in the block (log 17). -/
  | belowBlock
  /-- the offset is above `0x1C`. -/
  | offsetAboveBlock
  /-- the access is narrower or wider than 32 bits. -/
  | notA32BitAccess
  deriving DecidableEq, Repr

/-- What the decoder answers: an operation, or the reason there is none. -/
inductive Decoded where
  | instr (i : Instr)
  | rejected (e : DecodeError)
  deriving DecidableEq, Repr

/-! ### Decoding -/

/-- The HOST header table of R72. A header that is not listed has `offset[1:0]` ≠ 0. -/
def decodeHost (header : BitVec 6) (wdata : Word) : Decoded :=
  match header.toNat with
  | 0x20 => .instr (.wrSeed wdata)
  | 0x24 => .instr (.wrLen wdata)
  | 0x28 => .instr (.wrAddr wdata)
  | 0x2C => .instr (.wrCtrl wdata)
  | 0x30 => .instr (.wrStatus wdata)
  | 0x34 => .instr (.wrDigest wdata)
  | 0x38 => .instr (.wrCfg wdata)
  | 0x3C => .instr (.wrRsvd wdata)
  | 0x00 => .instr .rdSeed
  | 0x04 => .instr .rdLen
  | 0x08 => .instr .rdAddr
  | 0x0C => .instr .rdCtrl
  | 0x10 => .instr .rdStatus
  | 0x14 => .instr .rdDigest
  | 0x18 => .instr .rdCfg
  | 0x1C => .instr .rdRsvd
  | _ => .rejected .misalignedOffset

/-- The CTRL word (R73): bit 0 alone selects the command, bits 31:1 are ignored. -/
def decodeCtrl (word : Word) : Instr :=
  if word.getLsbD 0 then .start word else .ctrlNop word

/-- The sequencer operation at each PHASE value (R76). -/
def decodePhase : Phase → Instr
  | .idle => .idle
  | .bulk => .bulk
  | .tail => .tail
  | .tmix => .tmix
  | .lmix => .lmix
  | .aval => .aval
  | .done => .done
  | .fault => .fault

/-- The code of each PHASE value (R76). -/
def phaseCode : Phase → BitVec 3
  | .idle => 0b000#3
  | .bulk => 0b001#3
  | .tail => 0b010#3
  | .tmix => 0b011#3
  | .lmix => 0b100#3
  | .aval => 0b101#3
  | .done => 0b110#3
  | .fault => 0b111#3

/-- The PHASE value of each code: all eight codes are used (R76). -/
def phaseOfCode (code : BitVec 3) : Phase :=
  match code.toNat with
  | 0 => .idle
  | 1 => .bulk
  | 2 => .tail
  | 3 => .tmix
  | 4 => .lmix
  | 5 => .aval
  | 6 => .done
  | _ => .fault

/-- The decoder of the three formats (R70). -/
def decode : OpWord → Decoded
  | .host header wdata => decodeHost header wdata
  | .ctrl word => .instr (decodeCtrl word)
  | .phase code => .instr (decodePhase (phaseOfCode code))

/-- The 6-bit header `{we, offset[4:0]}` of an access inside the block (R71). -/
def headerOf (we : Bool) (offset : Nat) : BitVec 6 :=
  BitVec.ofNat 6 ((if we then 0x20 else 0) + offset)

/-- The decoder of accesses at an offset of the block (R81): the third row of R79 first, then the table of R72. -/
def decodeOffset (we : Bool) (offset bytes : Nat) (wdata : Word) : Decoded :=
  if bytes ≠ 4 then .rejected .notA32BitAccess
  else if offset % 4 ≠ 0 then .rejected .misalignedOffset
  else if 0x1C < offset then .rejected .offsetAboveBlock
  else decodeHost (headerOf we offset) wdata

/-- The decoder of host accesses, for a block that the platform maps at `base` (REG_BASE: R7, R50, R71). -/
def decodeAccess (base : Nat) (a : Access) : Decoded :=
  if a.addr < base then .rejected .belowBlock
  else decodeOffset a.we (a.addr - base) a.bytes a.wdata

/-! ### Encoding -/

/-- The word of each operation, from the tables of R72, R73 and R76; a read carries no data word (log 14). -/
def encode : Instr → OpWord
  | .wrSeed wdata => .host 0x20#6 wdata
  | .wrLen wdata => .host 0x24#6 wdata
  | .wrAddr wdata => .host 0x28#6 wdata
  | .wrCtrl wdata => .host 0x2C#6 wdata
  | .wrStatus wdata => .host 0x30#6 wdata
  | .wrDigest wdata => .host 0x34#6 wdata
  | .wrCfg wdata => .host 0x38#6 wdata
  | .wrRsvd wdata => .host 0x3C#6 wdata
  | .rdSeed => .host 0x00#6 0
  | .rdLen => .host 0x04#6 0
  | .rdAddr => .host 0x08#6 0
  | .rdCtrl => .host 0x0C#6 0
  | .rdStatus => .host 0x10#6 0
  | .rdDigest => .host 0x14#6 0
  | .rdCfg => .host 0x18#6 0
  | .rdRsvd => .host 0x1C#6 0
  | .start word => .ctrl word
  | .ctrlNop word => .ctrl word
  | .idle => .phase 0b000#3
  | .bulk => .phase 0b001#3
  | .tail => .phase 0b010#3
  | .tmix => .phase 0b011#3
  | .lmix => .phase 0b100#3
  | .aval => .phase 0b101#3
  | .done => .phase 0b110#3
  | .fault => .phase 0b111#3

/-! ### The opcode table's numbering -/

/-- The data word a numbered word carries above its header byte. -/
def tableData (w : Nat) : Word := BitVec.ofNat 32 (w / 256)

/-- The encoded operation a numbered word of the opcode table stands for. The table's three formats overlap as
numbers, so the width and the value choose: 32 bits (or the mask's 1) is a CTRL word; 3 bits, or a value below 8
that is no aligned offset, is a PHASE code; else it is a HOST header byte, whose data word, if any, lies above
it (log 11). -/
def tableOpWord (nbits w : Nat) : Option OpWord :=
  let v := w % 2 ^ nbits
  if nbits = 32 ∨ nbits = 1 then some (.ctrl (BitVec.ofNat 32 v))
  else if nbits = 3 ∨ (v < 8 ∧ v % 4 ≠ 0) then some (.phase (BitVec.ofNat 3 v))
  else if v % 256 < 64 then some (.host (BitVec.ofNat 6 (v % 256)) (tableData v))
  else none

/-- The operation the decoder reads from a word numbered as spec/opcode_table.json numbers it. -/
def decodeTableWord (nbits w : Nat) : Option Instr :=
  match tableOpWord nbits w with
  | none => none
  | some o =>
    match decode o with
    | .instr i => some i
    | .rejected _ => none

end Sys2Proof
end

