-- ==== Sys2Proof/Machine/Turn.lean ====
section
/-! DEFINITION. How the machine comes by its next operation: PH32 fetches no instruction (20_memory.md R66); a turn of
the host, of the platform or of the sequencer is taken from `inputs`, and the sequencer's operation is the one PHASE
selects (00_scope.md R15, 30_encoding.md R81; log 1). -/

namespace Sys2Proof.Machine

/-- What a turn comes to: an operation to perform, or a change that is no operation, already made. -/
inductive Turn where
  | perform (i : Instr) (s : State)
  | already (s : State)
  deriving DecidableEq, Repr

/-- The sequencer's turn: PHASE is decoded (R81). -/
def sequencerTurn (s : State) : Turn := .perform (decodePhase s.phase) s

/-- The host's turn: the access is decoded (R81), or matches no operation (R79). -/
def hostTurn (a : Access) (s : State) : Turn :=
  match decodeAccess s.regBase a with
  | .instr i => .perform i s
  | .rejected _ => .already (unmatchedAccess a s)

/-- The next turn. When no turn is listed the sequencer takes it, so it is never starved (R198). -/
def nextTurn (s : State) : Turn :=
  match s.inputs with
  | [] => sequencerTurn s
  | .sequencer :: rest => sequencerTurn (s.take rest)
  | .host a :: rest => hostTurn a (s.take rest)
  | .command w :: rest => .perform (decodeCtrl w) (s.take rest)
  | .reset :: rest => .already (platformReset (s.take rest))
  | .memory a v :: rest => .already (changeMemory a v (s.take rest))

/-- The access a HOST word describes, on a block mapped at `base` (R71). -/
def accessOf (base : Nat) (header : BitVec 6) (wdata : Word) : Access :=
  ⟨header.getLsbD 5, base + header.toNat % 32, 4, wdata⟩

/-- A state whose next turn performs the encoded operation: the host's access or command comes first in `inputs`,
or PHASE holds the code and the sequencer's turn comes first. -/
def placeOperation (o : OpWord) (s : State) : State :=
  match o with
  | .host header wdata => s.take (.host (accessOf s.regBase header wdata) :: s.inputs)
  | .ctrl w => s.take (.command w :: s.inputs)
  | .phase code => { s with phase := phaseOfCode code, inputs := .sequencer :: s.inputs }

end Sys2Proof.Machine
end

