-- ==== Sys2Proof/Machine/Step.lean ====
section
/-! DEFINITION. One step of the machine: one turn of one agent (00_scope.md R15). -/

namespace Sys2Proof.Machine

/-- The next turn is taken, and its operation, if it is one, performed. -/
def step (s : State) : Host.Outcome State Fault Refusal :=
  match nextTurn s with
  | .perform i s' => exec i s'
  | .already s' => .next s'

/-- The state whose next step performs the operation of a word numbered as the opcode table numbers it (log 12). -/
def State.withFetchWord (s : State) (nbits w : Nat) : State :=
  match tableOpWord nbits w with
  | some o => placeOperation o s
  | none => s

end Sys2Proof.Machine
end

