-- ==== Sys2Proof/Machine/Reference.lean ====
section
/-! DEFINITION. The reference function Hash (45_reference_function.md R150), the reads a run makes (20_memory.md R56),
and the byte rearrangement of R162: what the machine is compared with. No step uses them. -/

namespace Sys2Proof.Machine

/-- The four bytes of the i-th complete bulk word of a buffer (R150). -/
def bulkBytes (b : List Byte) (i : Nat) : List Byte := (b.drop (4 * i)).take 4

/-- The bytes above the complete bulk words (R150). -/
def tailBytes (b : List Byte) : List Byte := b.drop (4 * (b.length / 4))

/-- `h` after the first `i` bulk words (R150). -/
def hashBulk (o : ByteOrder) (b : List Byte) (seed : Word) : Nat → Word
  | 0 => seed
  | i + 1 => mixH (hashBulk o b seed i) (word o (bulkBytes b i))

/-- The tail word of a buffer (R150). -/
def hashTail (b : List Byte) : Word := tailPack (b.length % 4) (tailBytes b)

/-- `Hash_o(B, n, s)` with `n` the number of bytes in `B` (R150). R150 defines it for fewer than 2^32 bytes; on longer
sequences, which no run hashes, the length is folded modulo 2^32, the model's choice (log 19). -/
def refHash (o : ByteOrder) (b : List Byte) (seed : Word) : Word :=
  fmix (mixH (mixH (hashBulk o b seed (b.length / 4)) (hashTail b)) (BitVec.ofNat 32 b.length))

/-- The requests of a run on `n` bytes at `a`, as address and size, in order: ascending bulk words, then tail bytes
in descending order (R56). -/
def footprint (a n : Nat) : List (Nat × Nat) :=
  (List.range (n / 4)).map (fun i => (a + 4 * i, 4))
    ++ (List.range (n % 4)).reverse.map (fun j => (a + 4 * (n / 4) + j, 1))

/-- `B'` of R162: the four bytes of each complete bulk word reversed, the tail left in place. -/
def swapBulkWords : List Byte → List Byte
  | b0 :: b1 :: b2 :: b3 :: rest => b3 :: b2 :: b1 :: b0 :: swapBulkWords rest
  | rest => rest

end Sys2Proof.Machine
end

