-- ==== Sys2Proof/Machine/Script.lean ====
section
/-! DEFINITION. The host's script lines (30_encoding.md R82) and the call HASH (R83) as turns of the host. -/

namespace Sys2Proof.Machine

/-- The registers of the block (10_state.md R39). -/
inductive HostReg where
  | seed
  | len
  | addr
  | ctrl
  | status
  | digest
  | cfg
  | rsvd
  deriving DecidableEq, Repr

/-- The byte offset of each register (R39, R72). -/
def regOffset : HostReg → Nat
  | .seed => 0x00
  | .len => 0x04
  | .addr => 0x08
  | .ctrl => 0x0C
  | .status => 0x10
  | .digest => 0x14
  | .cfg => 0x18
  | .rsvd => 0x1C

/-- `WR <reg>, <value>` (R82), on a block mapped at `base`. -/
def wrLine (base : Nat) (r : HostReg) (v : Word) : Event := .host ⟨true, base + regOffset r, 4, v⟩

/-- `RD <reg>` (R82); the word read appears in `rdata`. -/
def rdLine (base : Nat) (r : HostReg) : Event := .host ⟨false, base + regOffset r, 4, 0⟩

/-- `START`, the alias of `WR CTRL, 0x00000001` (R82). -/
def startLine : Event := .command 0x00000001#32

/-- The lines of `HASH a, n, s` up to its START (R83). POLL and the read of DIGEST follow when the run has ended. -/
def hashCall (base : Nat) (a n s : Word) : List Event :=
  [wrLine base .seed s, wrLine base .len n, wrLine base .addr a, startLine]

end Sys2Proof.Machine
end

