-- ==== Sys2Proof/Safety.lean ====
section
/-! DEFINITION. The invariant of PH32, runs of several steps, and the premises of a run (60_exceptions.md R180), in the
terms the statements use. -/

namespace Sys2Proof.Machine

/-! ### Runs -/

/-- `n` steps, stopping at the first that is no next state. -/
def runSteps : Nat → State → Host.Outcome State Fault Refusal
  | 0, s => .next s
  | n + 1, s =>
    match step s with
    | .next s' => runSteps n s'
    | .fault r => .fault r
    | .refused r => .refused r

/-! ### The invariant -/

/-- ECODE is a cause exactly in FAULT (10_state.md R33, 60_exceptions.md R170). -/
abbrev CauseRecorded (s : State) : Prop :=
  (s.phase = .fault → s.ecode = 1#4 ∨ s.ecode = 2#4) ∧ (s.phase ≠ .fault → s.ecode = 0#4)

/-- While bytes remain to be read none lies beyond the buffer space (R30). -/
abbrev ReadsInSpace (s : State) : Prop :=
  (s.phase = .bulk ∨ s.phase = .tail) → 0 < s.rem.toNat → s.ptr.toNat + s.rem.toNat ≤ 4294967296

/-- REM counts down from the captured length by fours (R29). -/
abbrev CountsDown (s : State) : Prop :=
  (s.phase = .bulk ∨ s.phase = .tail ∨ s.phase = .tmix ∨ s.phase = .lmix) →
    s.rem.toNat ≤ s.l.toNat ∧ s.rem.toNat % 4 = s.l.toNat % 4

/-- After the bulk loop fewer than four bytes remain (41_bulk.md R100, R101). -/
abbrev TailIsShort (s : State) : Prop :=
  (s.phase = .tail ∨ s.phase = .tmix ∨ s.phase = .lmix ∨ s.phase = .aval ∨ s.phase = .done) → s.rem.toNat < 4

/-- The packed tail has its bits 31:24 clear (42_tail.md R110). -/
abbrev TailWordIsShort (s : State) : Prop := s.phase = .tmix → s.t.toNat < 16777216

/-- In DONE, DIGEST is the accumulator's value (43_length_final.md R123, R126). -/
abbrev DigestIsFinal (s : State) : Prop := s.phase = .done → s.digest = s.h

/-- What holds of the machine in every state of a run. -/
abbrev Inv (s : State) : Prop :=
  s.mem.wf ∧ CauseRecorded s ∧ ReadsInSpace s ∧ CountsDown s ∧ TailIsShort s ∧ TailWordIsShort s ∧ DigestIsFinal s

/-! ### Kinds of operation -/

/-- The rows the host performs: formats HOST and CTRL (30_encoding.md R70). -/
def hostRow : Instr → Bool
  | .idle => false
  | .bulk => false
  | .tail => false
  | .tmix => false
  | .lmix => false
  | .aval => false
  | .done => false
  | .fault => false
  | .wrSeed _ => true
  | .wrLen _ => true
  | .wrAddr _ => true
  | .wrCtrl _ => true
  | .wrStatus _ => true
  | .wrDigest _ => true
  | .wrCfg _ => true
  | .wrRsvd _ => true
  | .rdSeed => true
  | .rdLen => true
  | .rdAddr => true
  | .rdCtrl => true
  | .rdStatus => true
  | .rdDigest => true
  | .rdCfg => true
  | .rdRsvd => true
  | .start _ => true
  | .ctrlNop _ => true

/-- The operations that give the START command: the CTRL word has bit 0 set (R73). -/
def givesStart : Instr → Bool
  | .start _ => true
  | .wrCtrl w => w.getLsbD 0
  | _ => false

/-- The turn is the sequencer's: it is listed first, or no turn is listed. -/
def sequencersTurn (s : State) : Bool :=
  match s.inputs with
  | [] => true
  | e :: _ => e = .sequencer

/-- The turn gives the START command: an access that decodes to it, or a command word with bit 0 set. -/
def startGiven (s : State) : Bool :=
  match s.inputs with
  | .host a :: _ =>
    match decodeAccess s.regBase a with
    | .instr i => givesStart i
    | .rejected _ => false
  | .command w :: _ => w.getLsbD 0
  | _ => false

/-- The turn is the platform's reset. -/
def resetGiven (s : State) : Bool := s.inputs.head? = some .reset

/-! ### The premises of a run (R180, R152) -/

/-- P2 with the buffer's contents: the bytes `b` are readable from address `a` up. -/
abbrev BufferAt (m : Memory) (a : Nat) (b : List Byte) : Prop :=
  ∀ i, i < b.length → m.read (a + i) = b[i]?

/-- A turn that leaves a run on the `n` bytes at `a` alone: no reset, and no change of a byte of the buffer (P3). -/
def leavesRunAlone (a n : Nat) : Event → Bool
  | .reset => false
  | .memory x _ => x.toNat < a || a + n ≤ x.toNat
  | .sequencer => true
  | .host _ => true
  | .command _ => true

/-- The turns of one run as they interleave: each leaves the run alone, the sequencer has exactly as many as a run on
`n` bytes takes, ⌊n/4⌋ + 5 (R128, R152), and the last turn is its own. -/
abbrev RunTurns (a n : Nat) (es : List Event) : Prop :=
  (∀ e ∈ es, leavesRunAlone a n e = true) ∧ es.count .sequencer = n / 4 + 5 ∧ es.getLast? = some .sequencer

/-! ### What the host can see -/

/-- Two states the host cannot tell apart: equal in all that a host operation reads, where the phases may differ as
long as both are busy (10_state.md R36, R204). `draws` is equal so that equal unspecified words are drawn. -/
abbrev HostAgrees (s s' : State) : Prop :=
  s.seed = s'.seed ∧ s.len = s'.len ∧ s.addr = s'.addr ∧ s.ecode = s'.ecode ∧ s.digest = s'.digest ∧
  s.byteOrder = s'.byteOrder ∧ s.rdata = s'.rdata ∧ s.draws = s'.draws ∧
  busy s.phase = busy s'.phase ∧ (busy s.phase = false → s.phase = s'.phase)

end Sys2Proof.Machine
end

