-- ==== Sys2Proof/Certificates/Slice0/Obligations.lean ====
section
/-! DEFINITION. The statements about the model for the provers, each with the rule of spec/ it formalises. -/

open Sys2Proof Sys2Proof.Machine

/-! ### Encodings -/

/-- R72, R71: the sixteen headers of the HOST table, each with the operation it selects, for every data word. -/
def Obligations.HostHeadersSelectOperations : Prop :=
  ∀ w : Word,
    (decode (.host 0x20#6 w) = .instr (.wrSeed w) ∧ decode (.host 0x24#6 w) = .instr (.wrLen w) ∧
      decode (.host 0x28#6 w) = .instr (.wrAddr w) ∧ decode (.host 0x2C#6 w) = .instr (.wrCtrl w) ∧
      decode (.host 0x30#6 w) = .instr (.wrStatus w) ∧ decode (.host 0x34#6 w) = .instr (.wrDigest w) ∧
      decode (.host 0x38#6 w) = .instr (.wrCfg w) ∧ decode (.host 0x3C#6 w) = .instr (.wrRsvd w)) ∧
    decode (.host 0x00#6 w) = .instr .rdSeed ∧ decode (.host 0x04#6 w) = .instr .rdLen ∧
    decode (.host 0x08#6 w) = .instr .rdAddr ∧ decode (.host 0x0C#6 w) = .instr .rdCtrl ∧
    decode (.host 0x10#6 w) = .instr .rdStatus ∧ decode (.host 0x14#6 w) = .instr .rdDigest ∧
    decode (.host 0x18#6 w) = .instr .rdCfg ∧ decode (.host 0x1C#6 w) = .instr .rdRsvd

/-- R73: bit 0 of the CTRL word alone selects START or CTRL.NOP. -/
def Obligations.CtrlWordSelectsCommand : Prop :=
  ∀ w : Word,
    (w &&& 0x00000001#32 = 0x00000001#32 → decode (.ctrl w) = .instr (.start w)) ∧
    (w &&& 0x00000001#32 = 0x00000000#32 → decode (.ctrl w) = .instr (.ctrlNop w))

/-- R76: the eight PHASE codes, each with its name and the operation at it; no code is illegal. -/
def Obligations.PhaseCodesSelectOperations : Prop :=
  (decode (.phase 0b000#3) = .instr .idle ∧ decode (.phase 0b001#3) = .instr .bulk ∧
    decode (.phase 0b010#3) = .instr .tail ∧ decode (.phase 0b011#3) = .instr .tmix ∧
    decode (.phase 0b100#3) = .instr .lmix ∧ decode (.phase 0b101#3) = .instr .aval ∧
    decode (.phase 0b110#3) = .instr .done ∧ decode (.phase 0b111#3) = .instr .fault) ∧
  (∀ p : Phase, phaseOfCode (phaseCode p) = p) ∧ (∀ c : BitVec 3, phaseCode (phaseOfCode c) = c)

/-- R71 to R76: decoding the encoding of a well-formed operation gives it back, and a word that decodes encodes back
to itself, but for the data word of a read, which no read has (R71). -/
def Obligations.DecodeAndEncodeAgree : Prop :=
  (∀ i : Instr, i.wellFormed = true → decode (encode i) = .instr i) ∧
  (∀ (o : OpWord) (i : Instr), decode o = .instr i → i.wellFormed = true ∧
    (encode i = o ∨ ∃ (header : BitVec 6) (w : Word),
      o = .host header w ∧ header.getLsbD 5 = false ∧ encode i = .host header 0))

/-- R79 (third row), R81: wherever the block is mapped (REG_BASE, R7), a host access matches no operation exactly when
it is not an aligned 32-bit access at an offset up to 0x1C from there; one below the block has no such offset (log 17). -/
def Obligations.OnlyMalformedAccessesAreRejected : Prop :=
  ∀ (base : Nat) (a : Access), (∃ e, decodeAccess base a = .rejected e) ↔
    (a.bytes ≠ 4 ∨ ¬∃ offset, a.addr = base + offset ∧ offset % 4 = 0 ∧ offset ≤ 0x1C)

/-- R60: such an access at an offset from REG_BASE reads as 0 and writes nothing; every register and all memory stay. -/
def Obligations.MalformedAccessReadsZeroWritesNothing : Prop :=
  ∀ (s : State) (we : Bool) (offset bytes : Nat) (w : Word) (rest : List Event),
    s.inputs = .host ⟨we, s.regBase + offset, bytes, w⟩ :: rest →
    (bytes ≠ 4 ∨ offset % 4 ≠ 0 ∨ 0x1C < offset) →
    (we = true → step s = .next { s with inputs := rest }) ∧
    (we = false → step s = .next { s with inputs := rest, rdata := 0x00000000#32 })

/-! ### Host operations -/

/-- R131, R132, R134: an operand write changes its register and nothing else, in every phase. -/
def Obligations.OperandWritesChangeOneRegister : Prop :=
  ∀ (s : State) (w : Word),
    (decode (.host 0x20#6 w) = .instr (.wrSeed w) ∧ exec (.wrSeed w) s = .next { s with seed := w }) ∧
    (decode (.host 0x24#6 w) = .instr (.wrLen w) ∧ exec (.wrLen w) s = .next { s with len := w }) ∧
    (decode (.host 0x28#6 w) = .instr (.wrAddr w) ∧ exec (.wrAddr w) s = .next { s with addr := w })

/-- R143, R145, R147, R149, R140: writes to STATUS, DIGEST, CFG and the reserved offset change nothing, nor does CTRL.NOP,
a command word with bit 0 clear. -/
def Obligations.IgnoredWritesChangeNothing : Prop :=
  ∀ (s : State) (w : Word),
    (decode (.host 0x30#6 w) = .instr (.wrStatus w) ∧ exec (.wrStatus w) s = .next s) ∧
    (decode (.host 0x34#6 w) = .instr (.wrDigest w) ∧ exec (.wrDigest w) s = .next s) ∧
    (decode (.host 0x38#6 w) = .instr (.wrCfg w) ∧ exec (.wrCfg w) s = .next s) ∧
    (decode (.host 0x3C#6 w) = .instr (.wrRsvd w) ∧ exec (.wrRsvd w) s = .next s) ∧
    (w &&& 0x00000001#32 = 0x00000000#32 →
      decode (.host 0x2C#6 w) = .instr (.wrCtrl w) ∧ decode (.ctrl w) = .instr (.ctrlNop w) ∧
      exec (.wrCtrl w) s = .next s ∧ exec (.ctrlNop w) s = .next s)

/-- R135 to R137: the operand registers read back; nothing but the word returned changes. -/
def Obligations.OperandReadsReturnTheOperandRegisters : Prop :=
  ∀ (s : State) (w : Word),
    (decode (.host 0x00#6 w) = .instr .rdSeed ∧ exec .rdSeed s = .next { s with rdata := s.seed }) ∧
    (decode (.host 0x04#6 w) = .instr .rdLen ∧ exec .rdLen s = .next { s with rdata := s.len }) ∧
    (decode (.host 0x08#6 w) = .instr .rdAddr ∧ exec .rdAddr s = .next { s with rdata := s.addr })

/-- R141, R148, R146: CTRL and the reserved offset read 0; CFG reads 0 on an LE and 1 on a BE instance. -/
def Obligations.CtrlReservedAndCfgReadConstants : Prop :=
  ∀ (s : State) (w : Word),
    (decode (.host 0x0C#6 w) = .instr .rdCtrl ∧ exec .rdCtrl s = .next { s with rdata := 0x00000000#32 }) ∧
    (decode (.host 0x1C#6 w) = .instr .rdRsvd ∧ exec .rdRsvd s = .next { s with rdata := 0x00000000#32 }) ∧
    decode (.host 0x18#6 w) = .instr .rdCfg ∧
    (s.byteOrder = .le → exec .rdCfg s = .next { s with rdata := 0x00000000#32 }) ∧
    (s.byteOrder = .be → exec .rdCfg s = .next { s with rdata := 0x00000001#32 })

/-- R33: the fields of the word RD.STATUS returns, in every state; nothing but the word returned changes. -/
def Obligations.StatusReadShowsPhaseAndCause : Prop :=
  ∀ s : State, ∃ v : Word, exec .rdStatus s = .next { s with rdata := v } ∧
    (v.getLsbD 0 = true ↔
      s.phase = .bulk ∨ s.phase = .tail ∨ s.phase = .tmix ∨ s.phase = .lmix ∨ s.phase = .aval) ∧
    (v.getLsbD 1 = true ↔ s.phase = .done) ∧
    (v.getLsbD 2 = true ↔ s.phase = .fault) ∧
    v.getLsbD 3 = false ∧ v.extractLsb' 4 4 = s.ecode ∧ v.extractLsb' 8 24 = 0#24

/-- R142, R74: in every state that meets the invariant the word is one of five, the same in every busy phase, and the
read changes nothing. -/
def Obligations.StatusReadsOneOfFiveWords : Prop :=
  (∀ w : Word, decode (.host 0x10#6 w) = .instr .rdStatus) ∧
  ∀ s : State, Inv s → ∃ v : Word, exec .rdStatus s = .next { s with rdata := v } ∧
    ((s.phase = .idle ∧ v = 0x00000000#32) ∨
     ((s.phase = .bulk ∨ s.phase = .tail ∨ s.phase = .tmix ∨ s.phase = .lmix ∨ s.phase = .aval) ∧
       v = 0x00000001#32) ∨
     (s.phase = .done ∧ v = 0x00000002#32) ∨
     (s.phase = .fault ∧ s.ecode = 1#4 ∧ v = 0x00000014#32) ∨
     (s.phase = .fault ∧ s.ecode = 2#4 ∧ v = 0x00000024#32))

/-- R144: in DONE a read of DIGEST returns it and changes nothing else; in any other phase it returns some word (a
free value, log 7) and changes nothing else but the model's count of such reads. -/
def Obligations.DigestReadReturnsDigestOnlyInDone : Prop :=
  ∀ s : State,
    (s.phase = .done → exec .rdDigest s = .next { s with rdata := s.digest }) ∧
    (s.phase ≠ .done → ∃ v : Word, exec .rdDigest s = .next { s with rdata := v, draws := s.draws + 1 })

/-- R130: every host operation completes, from every state, and leaves memory and the record of memory reads alone;
only a START command given in a hold state can change PHASE. -/
def Obligations.HostOperationsCompleteAndOnlyStartMovesPhase : Prop :=
  ∀ (i : Instr) (s : State), hostRow i = true → ∃ t, exec i s = .next t ∧
    t.mem = s.mem ∧ t.reads = s.reads ∧
    (t.phase ≠ s.phase → givesStart i = true ∧ (s.phase = .idle ∨ s.phase = .done ∨ s.phase = .fault))

/-- R133, R139, R152 (4): while busy no host operation changes a register of the run, STATUS or DIGEST. -/
def Obligations.HostCannotDisturbABusyRun : Prop :=
  ∀ (i : Instr) (s t : State), hostRow i = true →
    (s.phase = .bulk ∨ s.phase = .tail ∨ s.phase = .tmix ∨ s.phase = .lmix ∨ s.phase = .aval) →
    exec i s = .next t →
    t.h = s.h ∧ t.k = s.k ∧ t.t = s.t ∧ t.l = s.l ∧ t.rem = s.rem ∧ t.ptr = s.ptr ∧ t.phase = s.phase ∧
    t.ecode = s.ecode ∧ t.digest = s.digest ∧ t.byteOrder = s.byteOrder ∧ t.regBase = s.regBase

/-- R36: working registers and the choice among busy phases stay hidden: two states that agree in what the host can
see agree after the same host operation, the word it returns included (equal counts of free words premised: log 7). -/
def Obligations.HostCannotTellWorkingStateApart : Prop :=
  ∀ (i : Instr) (s s' t t' : State), hostRow i = true → HostAgrees s s' →
    exec i s = .next t → exec i s' = .next t' → HostAgrees t t'

/-! ### The START command -/

/-- R138, R171: an accepted START, given as the command or as the WR.CTRL whose word encodes it, begins a run with
the operands captured, or, when the declared buffer passes the top of the buffer space, takes IA_RANGE; K, T and DIGEST
are not written, and no read is made. From FAULT this is how the fault is left or replaced (R177). -/
def Obligations.AcceptedStartBeginsARunOrTakesIaRange : Prop :=
  ∀ (s : State) (w : Word) (i : Instr), w &&& 0x00000001#32 = 0x00000001#32 →
    (decode (.ctrl w) = .instr i ∨ decode (.host 0x2C#6 w) = .instr i) →
    (s.phase = .idle ∨ s.phase = .done ∨ s.phase = .fault) →
    (s.addr.toNat + s.len.toNat ≤ 2 ^ 32 →
      exec i s = .next { s with
        ecode := 0#4, h := s.seed, l := s.len, rem := s.len, ptr := s.addr, phase := .bulk }) ∧
    (2 ^ 32 < s.addr.toNat + s.len.toNat → exec i s = .next { s with ecode := 1#4, phase := .fault })

/-- The model's choice (log 18): the meanings of START and CTRL.NOP do not look at their word, so they are the same for a
START whose word has bit 0 clear and a CTRL.NOP whose word has it set, terms which no word decodes to (R73). START in a hold
state, with operands that pass the range test, begins the run, and while busy changes nothing; CTRL.NOP changes nothing. -/
def Obligations.CommandsIgnoreTheirWord : Prop :=
  ∀ (s : State) (w : Word),
    exec (.ctrlNop w) s = .next s ∧
    (busy s.phase = false → s.addr.toNat + s.len.toNat ≤ 2 ^ 32 →
      exec (.start w) s = .next { s with
        ecode := 0#4, h := s.seed, l := s.len, rem := s.len, ptr := s.addr, phase := .bulk }) ∧
    (busy s.phase = true → exec (.start w) s = .next s)

/-- R139: a START while busy, given as the command or as the WR.CTRL whose word encodes it, changes nothing. -/
def Obligations.StartWhileBusyIsIgnored : Prop :=
  ∀ (s : State) (w : Word) (i : Instr), w &&& 0x00000001#32 = 0x00000001#32 →
    (decode (.ctrl w) = .instr i ∨ decode (.host 0x2C#6 w) = .instr i) →
    (s.phase = .bulk ∨ s.phase = .tail ∨ s.phase = .tmix ∨ s.phase = .lmix ∨ s.phase = .aval) →
    exec i s = .next s

/-- R73, R81: a WR.CTRL completes and is the command its data word encodes. -/
def Obligations.CtrlWriteIsTheCommandOfItsWord : Prop :=
  ∀ (s : State) (w : Word), ∃ t, exec (.wrCtrl w) s = .next t ∧
    (w.getLsbD 0 = true → exec (.start w) s = .next t) ∧ (w.getLsbD 0 = false → t = s)

/-! ### The datapath functions -/

/-- R90: the five steps of MIX, the products taken modulo 2^32. -/
def Obligations.MixIsTheFiveSteps : Prop :=
  ∀ h k k1 k2 k3 h1 : Word,
    k1.toNat = k.toNat * 0x5bd1e995 % 2 ^ 32 → k2 = k1 ^^^ (k1 >>> 24) →
    k3.toNat = k2.toNat * 0x5bd1e995 % 2 ^ 32 → h1.toNat = h.toNat * 0x5bd1e995 % 2 ^ 32 →
    mix h k = (h1 ^^^ k3, k3) ∧ mixH h k = h1 ^^^ k3 ∧ mixK k = k3

/-- R122: the three lines of FMIX. -/
def Obligations.FmixIsTheThreeLines : Prop :=
  ∀ h a b : Word, a = h ^^^ (h >>> 13) → b.toNat = a.toNat * 0x5bd1e995 % 2 ^ 32 →
    fmix h = b ^^^ (b >>> 15)

/-- R52: WORD of four bytes is their value in the instance's byte order. -/
def Obligations.BulkWordFollowsByteOrder : Prop :=
  ∀ b0 b1 b2 b3 : Byte,
    (word .le [b0, b1, b2, b3]).toNat =
      b0.toNat + 2 ^ 8 * b1.toNat + 2 ^ 16 * b2.toNat + 2 ^ 24 * b3.toNat ∧
    (word .be [b0, b1, b2, b3]).toNat =
      b3.toNat + 2 ^ 8 * b2.toNat + 2 ^ 16 * b1.toNat + 2 ^ 24 * b0.toNat

/-- R110: TAILPACK of 0 to 3 bytes is their value with the lowest-addressed byte least significant; bits 31:24 and
the lanes above the count are 0. -/
def Obligations.TailPackIsLeastSignificantByteFirst : Prop :=
  ∀ b0 b1 b2 : Byte,
    tailPack 0 [] = 0#32 ∧ (tailPack 1 [b0]).toNat = b0.toNat ∧
    (tailPack 2 [b0, b1]).toNat = b0.toNat + 2 ^ 8 * b1.toNat ∧
    (tailPack 3 [b0, b1, b2]).toNat = b0.toNat + 2 ^ 8 * b1.toNat + 2 ^ 16 * b2.toNat

/-- R96: M has the inverse 0xe59b19bd; the product by M, each xor-shift, MIXK, MIXH in each argument and FMIX (R122)
are bijections. -/
def Obligations.MixAndFmixAreBijections : Prop :=
  (∀ a : Word, a * 0x5bd1e995#32 * 0xe59b19bd#32 = a) ∧
  (Function.Bijective fun a : Word => a * 0x5bd1e995#32) ∧
  (∀ n, 1 ≤ n → n ≤ 31 → Function.Bijective fun a : Word => a ^^^ (a >>> n)) ∧
  Function.Bijective mixK ∧ (∀ k : Word, Function.Bijective fun h => mixH h k) ∧
  (∀ h : Word, Function.Bijective fun k => mixH h k) ∧ Function.Bijective fmix

/-! ### Memory -/

/-- R51: a read delivers the n bytes at the address, each byte at its place, or none at all, and none exactly when
some byte is not readable. -/
def Obligations.MemReadDeliversEveryByteOrNone : Prop :=
  ∀ (m : Memory) (a n : Nat),
    (∀ b : List Byte, readBytes m a n = some b ↔
      b.length = n ∧ ∀ i, i < n → m.read (a + i) = b[i]?) ∧
    (readBytes m a n = none ↔ ∃ i, i < n ∧ m.read (a + i) = none)

/-- U13, R61: a change of what the read port answers at one address is one step: that address answers the new way, every
other as before, the memory keeps its canonical form (log 2) and the engine's registers stay. -/
def Obligations.MemoryEventChangesOneAddress : Prop :=
  ∀ (s : State) (x : Word) (v : Option Byte) (rest : List Event), s.mem.wf →
    s.inputs = .memory x v :: rest → ∃ m : Memory, step s = .next { s with inputs := rest, mem := m } ∧
      m.wf ∧ m.read x.toNat = v ∧ ∀ a, a ≠ x.toNat → m.read a = s.mem.read a

/-- R50, R65: no operation writes memory: every address reads as before after every operation. -/
def Obligations.NoOperationWritesMemory : Prop :=
  ∀ (i : Instr) (s t : State), exec i s = .next t →
    t.mem = s.mem ∧ ∀ a, t.mem.read a = s.mem.read a

/-- R55: no operation but BULK and TAIL makes a memory read. -/
def Obligations.OnlyBulkAndTailReadMemory : Prop :=
  ∀ (i : Instr) (s t : State), exec i s = .next t → i ≠ .bulk → i ≠ .tail → t.reads = s.reads

/-! ### The sequencer's operations -/

/-- R100: BULK's three outcomes: the exit, one consumed word, the refused read. The request lies inside the buffer
space, which is where R51 defines it; it is kept in `reads`, the model's record of the requests (log 6). -/
def Obligations.BulkConsumesAWordOrExits : Prop :=
  decode (.phase 0b001#3) = .instr .bulk ∧ ∀ s : State,
    (s.rem.toNat < 4 → exec .bulk s = .next { s with phase := .tail }) ∧
    (4 ≤ s.rem.toNat → s.ptr.toNat + 4 ≤ 2 ^ 32 →
      (∀ b : List Byte, readBytes s.mem s.ptr.toNat 4 = some b →
        exec .bulk s = .next { s with
          h := mixH s.h (word s.byteOrder b), k := mixK (word s.byteOrder b)
          ptr := s.ptr + 4#32, rem := s.rem - 4#32, phase := .bulk
          reads := s.reads ++ [⟨s.ptr.toNat, 4, some b⟩] }) ∧
      (readBytes s.mem s.ptr.toNat 4 = none →
        exec .bulk s = .next { s with
          ecode := 2#4, phase := .fault, reads := s.reads ++ [⟨s.ptr.toNat, 4, none⟩] }))

/-- Log 8 (the model's own): a BULK whose request would pass the top of the buffer space, which R51 leaves undefined
and R30 excludes from every run, stops by name. -/
def Obligations.BulkBeyondTheBufferSpaceStops : Prop :=
  ∀ s : State, 4 ≤ s.rem.toNat → 2 ^ 32 < s.ptr.toNat + 4 →
    exec .bulk s = .fault .readOutsideBufferSpace

/-- R111, R56: TAIL packs the 0 to 3 bytes at PTR, reading them one by one in descending order and no other byte. -/
def Obligations.TailPacksTheRemainingBytes : Prop :=
  ∀ (s : State) (y : List Byte), s.rem.toNat = y.length → y.length ≤ 3 →
    s.ptr.toNat + y.length ≤ 2 ^ 32 → BufferAt s.mem s.ptr.toNat y →
    exec .tail s = .next { s with
      t := tailPack y.length y, phase := .tmix
      reads := s.reads ++
        (List.range y.length).reverse.map (fun j => ⟨s.ptr.toNat + j, 1, y[j]?.map fun b => [b]⟩) }

/-- R172, R175: the first refused tail read ends the step in IA_READ; no later read is made and nothing else is
written; that T keeps its value is the model's reading (log 13). -/
def Obligations.TailFaultsAtTheFirstRefusedRead : Prop :=
  ∀ (s : State) (j : Nat), s.rem.toNat ≤ 3 → s.ptr.toNat + s.rem.toNat ≤ 2 ^ 32 → j < s.rem.toNat →
    s.mem.read (s.ptr.toNat + j) = none →
    (∀ i, j < i → i < s.rem.toNat → s.mem.read (s.ptr.toNat + i) ≠ none) →
    exec .tail s = .next { s with
      ecode := 2#4, phase := .fault
      reads := s.reads ++ ((List.range s.rem.toNat).reverse.take (s.rem.toNat - j)).map
        (fun i => busRead s.mem (s.ptr.toNat + i) 1) }

/-- R53, R103: the byte order has no effect on TAIL. -/
def Obligations.TailIgnoresTheByteOrder : Prop :=
  ∀ (s t : State) (o : ByteOrder), exec .tail s = .next t →
    exec .tail { s with byteOrder := o } = .next { t with byteOrder := o }

/-- R120: TMIX folds T into H. -/
def Obligations.TmixFoldsTheTail : Prop :=
  decode (.phase 0b011#3) = .instr .tmix ∧
  ∀ s : State, exec .tmix s = .next { s with h := (mix s.h s.t).1, t := (mix s.h s.t).2, phase := .lmix }

/-- R121: LMIX folds the captured length into H. -/
def Obligations.LmixFoldsTheLength : Prop :=
  decode (.phase 0b100#3) = .instr .lmix ∧
  ∀ s : State, exec .lmix s = .next { s with h := (mix s.h s.l).1, l := (mix s.h s.l).2, phase := .aval }

/-- R123: AVAL finishes H and delivers it in DIGEST in the step that sets DONE; no other operation writes DIGEST. -/
def Obligations.AvalDeliversTheDigest : Prop :=
  decode (.phase 0b101#3) = .instr .aval ∧
  (∀ s : State, exec .aval s = .next { s with h := fmix s.h, digest := fmix s.h, phase := .done }) ∧
  ∀ (i : Instr) (s t : State), exec i s = .next t → i ≠ .aval → t.digest = s.digest

/-- R124, R126, R127: in a hold state the sequencer's turn changes nothing. -/
def Obligations.HoldStatesHaveNoEffect : Prop :=
  ∀ s : State, exec .idle s = .next s ∧ exec .done s = .next s ∧ exec .fault s = .next s

/-- R20, R22: no sequencer operation writes an operand register, nor what only the host's side and the platform own. -/
def Obligations.SequencerNeverWritesOperands : Prop :=
  ∀ (i : Instr) (s t : State), hostRow i = false → exec i s = .next t →
    t.seed = s.seed ∧ t.len = s.len ∧ t.addr = s.addr ∧ t.byteOrder = s.byteOrder ∧ t.regBase = s.regBase ∧
    t.rdata = s.rdata ∧ t.draws = s.draws ∧ t.inputs = s.inputs

/-- R176: an operation that enters FAULT writes PHASE and ECODE only (and has made the reads it made), with cause 1 for
START and 2 for BULK and TAIL; no other operation enters FAULT. A START refused in FAULT enters it again (R177). -/
def Obligations.FaultEntryWritesOnlyPhaseAndEcode : Prop :=
  ∀ (i : Instr) (s t : State), exec i s = .next t → (s.phase ≠ .fault ∨ givesStart i = true) → t.phase = .fault →
    t = { s with phase := .fault, ecode := t.ecode, reads := t.reads } ∧
    ((givesStart i = true ∧ t.ecode = 1#4 ∧ t.reads = s.reads) ∨ ((i = .bulk ∨ i = .tail) ∧ t.ecode = 2#4))

/-! ### Steps -/

/-- R15, R81: a step performs the operation the turn decodes to, with the turn taken from the list: a host access, a
CTRL command, or at the sequencer's turn the operation PHASE selects. The last two clauses are the model's choice, which
no rule gives: the sequencer takes the turn when none is listed (log 1), and a numbered word (log 11) placed by
`withFetchWord` (log 12) is what the next step performs. -/
def Obligations.StepPerformsTheDecodedOperation : Prop :=
  (∀ (s : State) (a : Access) (rest : List Event) (i : Instr),
    s.inputs = .host a :: rest → decodeAccess s.regBase a = .instr i → step s = exec i { s with inputs := rest }) ∧
  (∀ (s : State) (w : Word) (rest : List Event) (i : Instr),
    s.inputs = .command w :: rest → decode (.ctrl w) = .instr i → step s = exec i { s with inputs := rest }) ∧
  (∀ (s : State) (rest : List Event) (i : Instr),
    s.inputs = .sequencer :: rest → decode (.phase (phaseCode s.phase)) = .instr i →
    step s = exec i { s with inputs := rest }) ∧
  (∀ (s : State) (i : Instr),
    s.inputs = [] → decode (.phase (phaseCode s.phase)) = .instr i → step s = exec i s) ∧
  (∀ (s : State) (nbits w : Nat) (i : Instr), decodeTableWord nbits w = some i →
    step (s.withFetchWord nbits w) = exec i s ∨
    ∃ p : Phase, decodePhase p = i ∧ step (s.withFetchWord nbits w) = exec i { s with phase := p })

/-- R125: the successor of PHASE at each sequencer's turn, the invariant premised for R30 (no read lies outside the
buffer space). -/
def Obligations.SequencerMovesPhaseAsTabled : Prop :=
  ∀ s : State, Inv s → sequencersTurn s = true → ∃ t, step s = .next t ∧
    (s.phase = .idle → t.phase = .idle) ∧ (s.phase = .done → t.phase = .done) ∧
    (s.phase = .fault → t.phase = .fault) ∧
    (s.phase = .bulk → s.rem.toNat < 4 → t.phase = .tail) ∧
    (s.phase = .bulk → 4 ≤ s.rem.toNat → (readBytes s.mem s.ptr.toNat 4).isSome = true → t.phase = .bulk) ∧
    (s.phase = .bulk → 4 ≤ s.rem.toNat → (readBytes s.mem s.ptr.toNat 4).isSome = false →
      t.phase = .fault ∧ t.ecode = 2#4) ∧
    (s.phase = .tail → (readBytes s.mem s.ptr.toNat s.rem.toNat).isSome = true → t.phase = .tmix) ∧
    (s.phase = .tail → (readBytes s.mem s.ptr.toNat s.rem.toNat).isSome = false →
      t.phase = .fault ∧ t.ecode = 2#4) ∧
    (s.phase = .tmix → t.phase = .lmix) ∧ (s.phase = .lmix → t.phase = .aval) ∧
    (s.phase = .aval → t.phase = .done)

/-- R124, R126, R127, R178: IDLE, DONE and FAULT are left only by START and by reset; until then PHASE, ECODE, DIGEST
and the working registers keep their values and no memory read is made. -/
def Obligations.HoldStatesAreLeftOnlyByStartOrReset : Prop :=
  ∀ s : State, (s.phase = .idle ∨ s.phase = .done ∨ s.phase = .fault) →
    startGiven s = false → resetGiven s = false → ∃ t, step s = .next t ∧
    t.phase = s.phase ∧ t.ecode = s.ecode ∧ t.digest = s.digest ∧ t.reads = s.reads ∧
    t.h = s.h ∧ t.k = s.k ∧ t.t = s.t ∧ t.l = s.l ∧ t.rem = s.rem ∧ t.ptr = s.ptr

/-- R52, R35: no step changes the byte order, reset included. -/
def Obligations.ByteOrderIsNeverSwitched : Prop :=
  ∀ s t : State, step s = .next t → t.byteOrder = s.byteOrder

/-- R190: reset, in any state, is one step to the state of R43 (of the registers it leaves unspecified nothing is
said). That memory, its reads and the turns to come are untouched is the model's reading (log 4). -/
def Obligations.ResetEventRestoresTheResetState : Prop :=
  ∀ (s : State) (rest : List Event), s.inputs = .reset :: rest → ∃ t, step s = .next t ∧
    t.phase = .idle ∧ t.ecode = 0#4 ∧ t.seed = 0#32 ∧ t.len = 0#32 ∧ t.addr = 0#32 ∧
    t.byteOrder = s.byteOrder ∧ t.regBase = s.regBase ∧ t.mem = s.mem ∧ t.reads = s.reads ∧ t.inputs = rest

/-- R43: the values the spec gives for reset, STATUS among them, on the reference instance. -/
def Obligations.ResetStateIsAsTabled : Prop :=
  State.reset.phase = .idle ∧ State.reset.ecode = 0#4 ∧ State.reset.seed = 0#32 ∧ State.reset.len = 0#32 ∧
  State.reset.addr = 0#32 ∧ statusWord State.reset.phase State.reset.ecode = 0x00000000#32

/-! ### The invariant -/

/-- The invariant holds after reset (R43). -/
def Obligations.ResetMeetsTheInvariant : Prop := Inv State.reset

/-- R29, R30, R33, R110, R123: every step from a state that meets the invariant ends in one that meets it. -/
def Obligations.EveryStepKeepsTheInvariant : Prop :=
  ∀ s t : State, Inv s → step s = .next t → Inv t

/-- R30, R51, R187: from a state that meets the invariant every step has a next state: the machine never blocks, and
the one stop of the model is never met. -/
def Obligations.InvariantStatesNeverStop : Prop :=
  ∀ s : State, Inv s → ∃ t, step s = .next t

/-! ### Runs -/

/-- R101, R152: the bulk loop after j consuming steps of an undisturbed run. -/
def Obligations.BulkLoopInvariant : Prop :=
  ∀ (s : State) (b : List Byte) (w : Word) (j : Nat),
    (s.phase = .idle ∨ s.phase = .done ∨ s.phase = .fault) → s.inputs = [.command w] → w.getLsbD 0 = true →
    s.len.toNat = b.length → s.addr.toNat + b.length ≤ 2 ^ 32 → BufferAt s.mem s.addr.toNat b →
    j ≤ b.length / 4 →
    ∃ t, runSteps (1 + j) s = .next t ∧ t.phase = .bulk ∧ t.h = hashBulk s.byteOrder b s.seed j ∧
      t.ptr.toNat = (s.addr.toNat + 4 * j) % 2 ^ 32 ∧ t.rem.toNat = b.length - 4 * j ∧ t.l = s.len

/-- R152: a run that meets the precondition is in DONE after exactly ⌊n/4⌋ + 5 sequencer steps and busy before, with
Hash of the captured operands in DIGEST, the reads of R56 made, each answered, and memory as it was. -/
def Obligations.ARunComputesHash : Prop :=
  ∀ (s : State) (b : List Byte) (w : Word),
    (s.phase = .idle ∨ s.phase = .done ∨ s.phase = .fault) → s.inputs = [.command w] → w.getLsbD 0 = true →
    s.len.toNat = b.length → s.addr.toNat + b.length ≤ 2 ^ 32 → BufferAt s.mem s.addr.toNat b →
    (∃ t, runSteps (1 + (b.length / 4 + 5)) s = .next t ∧ t.phase = .done ∧
      t.digest = refHash s.byteOrder b s.seed ∧ t.mem = s.mem ∧
      t.reads = s.reads ++ (footprint s.addr.toNat b.length).map (fun r => busRead s.mem r.1 r.2) ∧
      ∀ r ∈ footprint s.addr.toNat b.length, (readBytes s.mem r.1 r.2).isSome = true) ∧
    ∀ k, k < b.length / 4 + 5 → ∃ t, runSteps (1 + k) s = .next t ∧ busy t.phase = true

/-- R152 (4), R61, R203: the same under every interleaving with host operations, STARTs and operand writes among them,
and with changes of memory outside the buffer. -/
def Obligations.AnInterleavedRunComputesHash : Prop :=
  ∀ (s : State) (b : List Byte) (w : Word) (es rest : List Event),
    (s.phase = .idle ∨ s.phase = .done ∨ s.phase = .fault) → s.inputs = .command w :: (es ++ rest) →
    w.getLsbD 0 = true → s.len.toNat = b.length → s.addr.toNat + b.length ≤ 2 ^ 32 →
    BufferAt s.mem s.addr.toNat b → RunTurns s.addr.toNat b.length es →
    ∃ t, runSteps (1 + es.length) s = .next t ∧ t.phase = .done ∧
      t.digest = refHash s.byteOrder b s.seed ∧ t.inputs = rest ∧
      t.reads.map (fun r => (r.addr, r.size)) =
        s.reads.map (fun r => (r.addr, r.size)) ++ footprint s.addr.toNat b.length

/-- R83, R192: the host script HASH a, n, s, under every interleaving of the run, reads 2 from STATUS and then Hash of
its operands from DIGEST. -/
def Obligations.TheHashCallReturnsHash : Prop :=
  ∀ (s : State) (b : List Byte) (a n seed : Word) (es : List Event),
    (s.phase = .idle ∨ s.phase = .done ∨ s.phase = .fault) →
    n.toNat = b.length → a.toNat + b.length ≤ 2 ^ 32 → BufferAt s.mem a.toNat b →
    RunTurns a.toNat b.length es →
    s.inputs = hashCall s.regBase a n seed ++ (es ++ [rdLine s.regBase .status, rdLine s.regBase .digest]) →
    (∃ t, runSteps (4 + es.length + 1) s = .next t ∧ t.rdata = 0x00000002#32) ∧
    (∃ t, runSteps (4 + es.length + 2) s = .next t ∧ t.rdata = refHash s.byteOrder b seed ∧ t.inputs = [])

/-- R153, R172: when some byte of the declared buffer is not readable the run ends in FAULT with IA_READ at the first
request, in the order of R56, that touches such a byte: every earlier request was made and no later one is, and
DIGEST is not written. -/
def Obligations.ARunEndsAtTheFirstRefusedRead : Prop :=
  ∀ (s : State) (w : Word),
    (s.phase = .idle ∨ s.phase = .done ∨ s.phase = .fault) → s.inputs = [.command w] → w.getLsbD 0 = true →
    s.addr.toNat + s.len.toNat ≤ 2 ^ 32 →
    (∃ i, i < s.len.toNat ∧ s.mem.read (s.addr.toNat + i) = none) →
    ∃ (k j : Nat) (t : State), k ≤ s.len.toNat / 4 + 2 ∧ runSteps (1 + k) s = .next t ∧
      t.phase = .fault ∧ t.ecode = 2#4 ∧ t.digest = s.digest ∧ t.mem = s.mem ∧
      (∃ r, (footprint s.addr.toNat s.len.toNat)[j]? = some r ∧ readBytes s.mem r.1 r.2 = none) ∧
      (∀ r ∈ (footprint s.addr.toNat s.len.toNat).take j, (readBytes s.mem r.1 r.2).isSome = true) ∧
      t.reads = s.reads ++
        ((footprint s.addr.toNat s.len.toNat).take (j + 1)).map (fun r => busRead s.mem r.1 r.2)

/-- R198, R101: every run ends: from a busy state that meets the invariant the sequencer reaches DONE or FAULT within
⌊REM/4⌋ + 5 steps. -/
def Obligations.EveryRunEndsWithinItsBound : Prop :=
  ∀ s : State, Inv s → busy s.phase = true → s.inputs = [] →
    ∃ (k : Nat) (t : State), k ≤ s.rem.toNat / 4 + 5 ∧ runSteps k s = .next t ∧
      (t.phase = .done ∨ t.phase = .fault)

/-! ### Hash -/

/-- R156: for a fixed buffer the digest is a bijection of the seed. Sequences of 2^32
bytes or more, of which R150 says nothing, are included by the model's choice (log 19). -/
def Obligations.DistinctSeedsGiveDistinctDigests : Prop :=
  ∀ (o : ByteOrder) (b : List Byte), Function.Bijective fun seed => refHash o b seed

/-- R157: two buffers of different lengths that agree on all bulk words and on the tail word always have different
digests; `[41]` and `[41, 00]` are such buffers. -/
def Obligations.LengthAloneChangesTheDigest : Prop :=
  (∀ (o : ByteOrder) (b b' : List Byte) (seed : Word), b.length < 2 ^ 32 → b'.length < 2 ^ 32 →
    b.length ≠ b'.length → b.length / 4 = b'.length / 4 →
    b.take (4 * (b.length / 4)) = b'.take (4 * (b.length / 4)) → hashTail b = hashTail b' →
    refHash o b seed ≠ refHash o b' seed) ∧
  ∀ (o : ByteOrder) (seed : Word), refHash o [0x41#8] seed ≠ refHash o [0x41#8, 0x00#8] seed

/-- R161: two buffers of equal length that differ in exactly one bulk word, or only in the tail, have different
digests. Sequences of 2^32
bytes or more, of which R150 says nothing, are included by the model's choice (log 19). -/
def Obligations.OneChangedWordChangesTheDigest : Prop :=
  ∀ (o : ByteOrder) (b b' : List Byte) (seed : Word), b.length = b'.length →
    (∀ j, j < b.length / 4 → bulkBytes b j ≠ bulkBytes b' j →
      (∀ i, i ≠ j → bulkBytes b i = bulkBytes b' i) → tailBytes b = tailBytes b' →
      refHash o b seed ≠ refHash o b' seed) ∧
    ((∀ i, i < b.length / 4 → bulkBytes b i = bulkBytes b' i) → tailBytes b ≠ tailBytes b' →
      refHash o b seed ≠ refHash o b' seed)

/-- R162, R53: the big-endian digest is the little-endian digest of the buffer with each bulk word's bytes reversed; a
buffer shorter than four bytes has one digest under both orders. Sequences of 2^32
bytes or more, of which R150 says nothing, are included by the model's choice (log 19). -/
def Obligations.ByteOrdersAreRelated : Prop :=
  ∀ (b : List Byte) (seed : Word),
    refHash .be b seed = refHash .le (swapBulkWords b) seed ∧
    (b.length < 4 → refHash .be b seed = refHash .le b seed)

/-! ### The mapping of the register block -/

/-- R7, R58, U16: REG_BASE only says where the block lies. No step changes it; an access at one offset from it has the
same effect wherever the platform maps the block; every other turn (the sequencer's, a command, reset, a change of
memory) has the same effect, or the same stop, whatever it is; and an access below it reads as 0 and writes nothing (the
model's choice, log 17). -/
def Obligations.NoRuleDependsOnRegBase : Prop :=
  (∀ s t : State, step s = .next t → t.regBase = s.regBase) ∧
  (∀ (s t : State) (we : Bool) (offset bytes : Nat) (w : Word) (rest : List Event) (base : Nat),
    s.inputs = .host ⟨we, s.regBase + offset, bytes, w⟩ :: rest → step s = .next t →
    step { s with regBase := base, inputs := .host ⟨we, base + offset, bytes, w⟩ :: rest } =
      .next { t with regBase := base }) ∧
  (∀ (s : State) (base : Nat), (∀ a, s.inputs.head? ≠ some (.host a)) →
    (∀ t, step s = .next t → step { s with regBase := base } = .next { t with regBase := base }) ∧
    ∀ r, step s = .fault r → step { s with regBase := base } = .fault r) ∧
  (∀ (s : State) (a : Access) (rest : List Event), s.inputs = .host a :: rest → a.addr < s.regBase →
    step s = .next { s with inputs := rest, rdata := if a.we then s.rdata else 0x00000000#32 })
end

