-- ==== Sys2Proof/Laws/State.lean ====
section
/-! SUPPORT. One lemma per field for each named update of the state, so that no proof unfolds an update. -/

namespace Sys2Proof.Machine

/-! ### State.take -/

@[simp] theorem State.take_seed (e : List Event) (s : State) : (State.take e s).seed = s.seed := rfl
@[simp] theorem State.take_len (e : List Event) (s : State) : (State.take e s).len = s.len := rfl
@[simp] theorem State.take_addr (e : List Event) (s : State) : (State.take e s).addr = s.addr := rfl
@[simp] theorem State.take_h (e : List Event) (s : State) : (State.take e s).h = s.h := rfl
@[simp] theorem State.take_k (e : List Event) (s : State) : (State.take e s).k = s.k := rfl
@[simp] theorem State.take_t (e : List Event) (s : State) : (State.take e s).t = s.t := rfl
@[simp] theorem State.take_l (e : List Event) (s : State) : (State.take e s).l = s.l := rfl
@[simp] theorem State.take_rem (e : List Event) (s : State) : (State.take e s).rem = s.rem := rfl
@[simp] theorem State.take_ptr (e : List Event) (s : State) : (State.take e s).ptr = s.ptr := rfl
@[simp] theorem State.take_phase (e : List Event) (s : State) : (State.take e s).phase = s.phase := rfl
@[simp] theorem State.take_ecode (e : List Event) (s : State) : (State.take e s).ecode = s.ecode := rfl
@[simp] theorem State.take_digest (e : List Event) (s : State) : (State.take e s).digest = s.digest := rfl
@[simp] theorem State.take_byteOrder (e : List Event) (s : State) : (State.take e s).byteOrder = s.byteOrder := rfl
@[simp] theorem State.take_regBase (e : List Event) (s : State) : (State.take e s).regBase = s.regBase := rfl
@[simp] theorem State.take_mem (e : List Event) (s : State) : (State.take e s).mem = s.mem := rfl
@[simp] theorem State.take_inputs (e : List Event) (s : State) : (State.take e s).inputs = e := rfl
@[simp] theorem State.take_rdata (e : List Event) (s : State) : (State.take e s).rdata = s.rdata := rfl
@[simp] theorem State.take_reads (e : List Event) (s : State) : (State.take e s).reads = s.reads := rfl
@[simp] theorem State.take_draws (e : List Event) (s : State) : (State.take e s).draws = s.draws := rfl

/-! ### State.logRead -/

@[simp] theorem State.logRead_seed (r : BusRead) (s : State) : (State.logRead r s).seed = s.seed := rfl
@[simp] theorem State.logRead_len (r : BusRead) (s : State) : (State.logRead r s).len = s.len := rfl
@[simp] theorem State.logRead_addr (r : BusRead) (s : State) : (State.logRead r s).addr = s.addr := rfl
@[simp] theorem State.logRead_h (r : BusRead) (s : State) : (State.logRead r s).h = s.h := rfl
@[simp] theorem State.logRead_k (r : BusRead) (s : State) : (State.logRead r s).k = s.k := rfl
@[simp] theorem State.logRead_t (r : BusRead) (s : State) : (State.logRead r s).t = s.t := rfl
@[simp] theorem State.logRead_l (r : BusRead) (s : State) : (State.logRead r s).l = s.l := rfl
@[simp] theorem State.logRead_rem (r : BusRead) (s : State) : (State.logRead r s).rem = s.rem := rfl
@[simp] theorem State.logRead_ptr (r : BusRead) (s : State) : (State.logRead r s).ptr = s.ptr := rfl
@[simp] theorem State.logRead_phase (r : BusRead) (s : State) : (State.logRead r s).phase = s.phase := rfl
@[simp] theorem State.logRead_ecode (r : BusRead) (s : State) : (State.logRead r s).ecode = s.ecode := rfl
@[simp] theorem State.logRead_digest (r : BusRead) (s : State) : (State.logRead r s).digest = s.digest := rfl
@[simp] theorem State.logRead_byteOrder (r : BusRead) (s : State) : (State.logRead r s).byteOrder = s.byteOrder := rfl
@[simp] theorem State.logRead_regBase (r : BusRead) (s : State) : (State.logRead r s).regBase = s.regBase := rfl
@[simp] theorem State.logRead_mem (r : BusRead) (s : State) : (State.logRead r s).mem = s.mem := rfl
@[simp] theorem State.logRead_inputs (r : BusRead) (s : State) : (State.logRead r s).inputs = s.inputs := rfl
@[simp] theorem State.logRead_rdata (r : BusRead) (s : State) : (State.logRead r s).rdata = s.rdata := rfl
@[simp] theorem State.logRead_reads (r : BusRead) (s : State) : (State.logRead r s).reads = s.reads ++ [r] := rfl
@[simp] theorem State.logRead_draws (r : BusRead) (s : State) : (State.logRead r s).draws = s.draws := rfl

/-! ### State.returnWord -/

@[simp] theorem State.returnWord_seed (v : Word) (s : State) : (State.returnWord v s).seed = s.seed := rfl
@[simp] theorem State.returnWord_len (v : Word) (s : State) : (State.returnWord v s).len = s.len := rfl
@[simp] theorem State.returnWord_addr (v : Word) (s : State) : (State.returnWord v s).addr = s.addr := rfl
@[simp] theorem State.returnWord_h (v : Word) (s : State) : (State.returnWord v s).h = s.h := rfl
@[simp] theorem State.returnWord_k (v : Word) (s : State) : (State.returnWord v s).k = s.k := rfl
@[simp] theorem State.returnWord_t (v : Word) (s : State) : (State.returnWord v s).t = s.t := rfl
@[simp] theorem State.returnWord_l (v : Word) (s : State) : (State.returnWord v s).l = s.l := rfl
@[simp] theorem State.returnWord_rem (v : Word) (s : State) : (State.returnWord v s).rem = s.rem := rfl
@[simp] theorem State.returnWord_ptr (v : Word) (s : State) : (State.returnWord v s).ptr = s.ptr := rfl
@[simp] theorem State.returnWord_phase (v : Word) (s : State) : (State.returnWord v s).phase = s.phase := rfl
@[simp] theorem State.returnWord_ecode (v : Word) (s : State) : (State.returnWord v s).ecode = s.ecode := rfl
@[simp] theorem State.returnWord_digest (v : Word) (s : State) : (State.returnWord v s).digest = s.digest := rfl
@[simp] theorem State.returnWord_byteOrder (v : Word) (s : State) : (State.returnWord v s).byteOrder = s.byteOrder := rfl
@[simp] theorem State.returnWord_regBase (v : Word) (s : State) : (State.returnWord v s).regBase = s.regBase := rfl
@[simp] theorem State.returnWord_mem (v : Word) (s : State) : (State.returnWord v s).mem = s.mem := rfl
@[simp] theorem State.returnWord_inputs (v : Word) (s : State) : (State.returnWord v s).inputs = s.inputs := rfl
@[simp] theorem State.returnWord_rdata (v : Word) (s : State) : (State.returnWord v s).rdata = v := rfl
@[simp] theorem State.returnWord_reads (v : Word) (s : State) : (State.returnWord v s).reads = s.reads := rfl
@[simp] theorem State.returnWord_draws (v : Word) (s : State) : (State.returnWord v s).draws = s.draws := rfl

/-! ### State.returnFree -/

@[simp] theorem State.returnFree_seed (s : State) : (State.returnFree s).seed = s.seed := rfl
@[simp] theorem State.returnFree_len (s : State) : (State.returnFree s).len = s.len := rfl
@[simp] theorem State.returnFree_addr (s : State) : (State.returnFree s).addr = s.addr := rfl
@[simp] theorem State.returnFree_h (s : State) : (State.returnFree s).h = s.h := rfl
@[simp] theorem State.returnFree_k (s : State) : (State.returnFree s).k = s.k := rfl
@[simp] theorem State.returnFree_t (s : State) : (State.returnFree s).t = s.t := rfl
@[simp] theorem State.returnFree_l (s : State) : (State.returnFree s).l = s.l := rfl
@[simp] theorem State.returnFree_rem (s : State) : (State.returnFree s).rem = s.rem := rfl
@[simp] theorem State.returnFree_ptr (s : State) : (State.returnFree s).ptr = s.ptr := rfl
@[simp] theorem State.returnFree_phase (s : State) : (State.returnFree s).phase = s.phase := rfl
@[simp] theorem State.returnFree_ecode (s : State) : (State.returnFree s).ecode = s.ecode := rfl
@[simp] theorem State.returnFree_digest (s : State) : (State.returnFree s).digest = s.digest := rfl
@[simp] theorem State.returnFree_byteOrder (s : State) : (State.returnFree s).byteOrder = s.byteOrder := rfl
@[simp] theorem State.returnFree_regBase (s : State) : (State.returnFree s).regBase = s.regBase := rfl
@[simp] theorem State.returnFree_mem (s : State) : (State.returnFree s).mem = s.mem := rfl
@[simp] theorem State.returnFree_inputs (s : State) : (State.returnFree s).inputs = s.inputs := rfl
@[simp] theorem State.returnFree_rdata (s : State) : (State.returnFree s).rdata = Config.freeDigest s.draws := rfl
@[simp] theorem State.returnFree_reads (s : State) : (State.returnFree s).reads = s.reads := rfl
@[simp] theorem State.returnFree_draws (s : State) : (State.returnFree s).draws = s.draws + 1 := rfl

/-! ### enterFault -/

@[simp] theorem enterFault_seed (c : Cause) (s : State) : (enterFault c s).seed = s.seed := rfl
@[simp] theorem enterFault_len (c : Cause) (s : State) : (enterFault c s).len = s.len := rfl
@[simp] theorem enterFault_addr (c : Cause) (s : State) : (enterFault c s).addr = s.addr := rfl
@[simp] theorem enterFault_h (c : Cause) (s : State) : (enterFault c s).h = s.h := rfl
@[simp] theorem enterFault_k (c : Cause) (s : State) : (enterFault c s).k = s.k := rfl
@[simp] theorem enterFault_t (c : Cause) (s : State) : (enterFault c s).t = s.t := rfl
@[simp] theorem enterFault_l (c : Cause) (s : State) : (enterFault c s).l = s.l := rfl
@[simp] theorem enterFault_rem (c : Cause) (s : State) : (enterFault c s).rem = s.rem := rfl
@[simp] theorem enterFault_ptr (c : Cause) (s : State) : (enterFault c s).ptr = s.ptr := rfl
@[simp] theorem enterFault_phase (c : Cause) (s : State) : (enterFault c s).phase = .fault := rfl
@[simp] theorem enterFault_ecode (c : Cause) (s : State) : (enterFault c s).ecode = causeCode c := rfl
@[simp] theorem enterFault_digest (c : Cause) (s : State) : (enterFault c s).digest = s.digest := rfl
@[simp] theorem enterFault_byteOrder (c : Cause) (s : State) : (enterFault c s).byteOrder = s.byteOrder := rfl
@[simp] theorem enterFault_regBase (c : Cause) (s : State) : (enterFault c s).regBase = s.regBase := rfl
@[simp] theorem enterFault_mem (c : Cause) (s : State) : (enterFault c s).mem = s.mem := rfl
@[simp] theorem enterFault_inputs (c : Cause) (s : State) : (enterFault c s).inputs = s.inputs := rfl
@[simp] theorem enterFault_rdata (c : Cause) (s : State) : (enterFault c s).rdata = s.rdata := rfl
@[simp] theorem enterFault_reads (c : Cause) (s : State) : (enterFault c s).reads = s.reads := rfl
@[simp] theorem enterFault_draws (c : Cause) (s : State) : (enterFault c s).draws = s.draws := rfl

/-! ### beginRun -/

@[simp] theorem beginRun_seed (s : State) : (beginRun s).seed = s.seed := rfl
@[simp] theorem beginRun_len (s : State) : (beginRun s).len = s.len := rfl
@[simp] theorem beginRun_addr (s : State) : (beginRun s).addr = s.addr := rfl
@[simp] theorem beginRun_h (s : State) : (beginRun s).h = s.seed := rfl
@[simp] theorem beginRun_k (s : State) : (beginRun s).k = s.k := rfl
@[simp] theorem beginRun_t (s : State) : (beginRun s).t = s.t := rfl
@[simp] theorem beginRun_l (s : State) : (beginRun s).l = s.len := rfl
@[simp] theorem beginRun_rem (s : State) : (beginRun s).rem = s.len := rfl
@[simp] theorem beginRun_ptr (s : State) : (beginRun s).ptr = s.addr := rfl
@[simp] theorem beginRun_phase (s : State) : (beginRun s).phase = .bulk := rfl
@[simp] theorem beginRun_ecode (s : State) : (beginRun s).ecode = 0 := rfl
@[simp] theorem beginRun_digest (s : State) : (beginRun s).digest = s.digest := rfl
@[simp] theorem beginRun_byteOrder (s : State) : (beginRun s).byteOrder = s.byteOrder := rfl
@[simp] theorem beginRun_regBase (s : State) : (beginRun s).regBase = s.regBase := rfl
@[simp] theorem beginRun_mem (s : State) : (beginRun s).mem = s.mem := rfl
@[simp] theorem beginRun_inputs (s : State) : (beginRun s).inputs = s.inputs := rfl
@[simp] theorem beginRun_rdata (s : State) : (beginRun s).rdata = s.rdata := rfl
@[simp] theorem beginRun_reads (s : State) : (beginRun s).reads = s.reads := rfl
@[simp] theorem beginRun_draws (s : State) : (beginRun s).draws = s.draws := rfl

/-! ### platformReset -/

@[simp] theorem platformReset_seed (s : State) : (platformReset s).seed = 0 := rfl
@[simp] theorem platformReset_len (s : State) : (platformReset s).len = 0 := rfl
@[simp] theorem platformReset_addr (s : State) : (platformReset s).addr = 0 := rfl
@[simp] theorem platformReset_h (s : State) : (platformReset s).h = 0 := rfl
@[simp] theorem platformReset_k (s : State) : (platformReset s).k = 0 := rfl
@[simp] theorem platformReset_t (s : State) : (platformReset s).t = 0 := rfl
@[simp] theorem platformReset_l (s : State) : (platformReset s).l = 0 := rfl
@[simp] theorem platformReset_rem (s : State) : (platformReset s).rem = 0 := rfl
@[simp] theorem platformReset_ptr (s : State) : (platformReset s).ptr = 0 := rfl
@[simp] theorem platformReset_phase (s : State) : (platformReset s).phase = .idle := rfl
@[simp] theorem platformReset_ecode (s : State) : (platformReset s).ecode = 0 := rfl
@[simp] theorem platformReset_digest (s : State) : (platformReset s).digest = 0 := rfl
@[simp] theorem platformReset_byteOrder (s : State) : (platformReset s).byteOrder = s.byteOrder := rfl
@[simp] theorem platformReset_regBase (s : State) : (platformReset s).regBase = s.regBase := rfl
@[simp] theorem platformReset_mem (s : State) : (platformReset s).mem = s.mem := rfl
@[simp] theorem platformReset_inputs (s : State) : (platformReset s).inputs = s.inputs := rfl
@[simp] theorem platformReset_rdata (s : State) : (platformReset s).rdata = s.rdata := rfl
@[simp] theorem platformReset_reads (s : State) : (platformReset s).reads = s.reads := rfl
@[simp] theorem platformReset_draws (s : State) : (platformReset s).draws = s.draws := rfl

/-! ### changeMemory -/

@[simp] theorem changeMemory_seed (a : Word) (v : Option Byte) (s : State) : (changeMemory a v s).seed = s.seed := rfl
@[simp] theorem changeMemory_len (a : Word) (v : Option Byte) (s : State) : (changeMemory a v s).len = s.len := rfl
@[simp] theorem changeMemory_addr (a : Word) (v : Option Byte) (s : State) : (changeMemory a v s).addr = s.addr := rfl
@[simp] theorem changeMemory_h (a : Word) (v : Option Byte) (s : State) : (changeMemory a v s).h = s.h := rfl
@[simp] theorem changeMemory_k (a : Word) (v : Option Byte) (s : State) : (changeMemory a v s).k = s.k := rfl
@[simp] theorem changeMemory_t (a : Word) (v : Option Byte) (s : State) : (changeMemory a v s).t = s.t := rfl
@[simp] theorem changeMemory_l (a : Word) (v : Option Byte) (s : State) : (changeMemory a v s).l = s.l := rfl
@[simp] theorem changeMemory_rem (a : Word) (v : Option Byte) (s : State) : (changeMemory a v s).rem = s.rem := rfl
@[simp] theorem changeMemory_ptr (a : Word) (v : Option Byte) (s : State) : (changeMemory a v s).ptr = s.ptr := rfl
@[simp] theorem changeMemory_phase (a : Word) (v : Option Byte) (s : State) : (changeMemory a v s).phase = s.phase := rfl
@[simp] theorem changeMemory_ecode (a : Word) (v : Option Byte) (s : State) : (changeMemory a v s).ecode = s.ecode := rfl
@[simp] theorem changeMemory_digest (a : Word) (v : Option Byte) (s : State) : (changeMemory a v s).digest = s.digest := rfl
@[simp] theorem changeMemory_byteOrder (a : Word) (v : Option Byte) (s : State) : (changeMemory a v s).byteOrder = s.byteOrder := rfl
@[simp] theorem changeMemory_regBase (a : Word) (v : Option Byte) (s : State) : (changeMemory a v s).regBase = s.regBase := rfl
@[simp] theorem changeMemory_mem (a : Word) (v : Option Byte) (s : State) : (changeMemory a v s).mem = s.mem.set a.toNat v := rfl
@[simp] theorem changeMemory_inputs (a : Word) (v : Option Byte) (s : State) : (changeMemory a v s).inputs = s.inputs := rfl
@[simp] theorem changeMemory_rdata (a : Word) (v : Option Byte) (s : State) : (changeMemory a v s).rdata = s.rdata := rfl
@[simp] theorem changeMemory_reads (a : Word) (v : Option Byte) (s : State) : (changeMemory a v s).reads = s.reads := rfl
@[simp] theorem changeMemory_draws (a : Word) (v : Option Byte) (s : State) : (changeMemory a v s).draws = s.draws := rfl

/-! ### consumeWord -/

@[simp] theorem consumeWord_seed (b : List Byte) (s : State) : (consumeWord b s).seed = s.seed := by
  rw [consumeWord]
@[simp] theorem consumeWord_len (b : List Byte) (s : State) : (consumeWord b s).len = s.len := by
  rw [consumeWord]
@[simp] theorem consumeWord_addr (b : List Byte) (s : State) : (consumeWord b s).addr = s.addr := by
  rw [consumeWord]
@[simp] theorem consumeWord_h (b : List Byte) (s : State) : (consumeWord b s).h = (mix s.h (word s.byteOrder b)).1 := by
  rw [consumeWord]
@[simp] theorem consumeWord_k (b : List Byte) (s : State) : (consumeWord b s).k = (mix s.h (word s.byteOrder b)).2 := by
  rw [consumeWord]
@[simp] theorem consumeWord_t (b : List Byte) (s : State) : (consumeWord b s).t = s.t := by
  rw [consumeWord]
@[simp] theorem consumeWord_l (b : List Byte) (s : State) : (consumeWord b s).l = s.l := by
  rw [consumeWord]
@[simp] theorem consumeWord_rem (b : List Byte) (s : State) : (consumeWord b s).rem = s.rem - 4 := by
  rw [consumeWord]
@[simp] theorem consumeWord_ptr (b : List Byte) (s : State) : (consumeWord b s).ptr = s.ptr + 4 := by
  rw [consumeWord]
@[simp] theorem consumeWord_phase (b : List Byte) (s : State) : (consumeWord b s).phase = .bulk := by
  rw [consumeWord]
@[simp] theorem consumeWord_ecode (b : List Byte) (s : State) : (consumeWord b s).ecode = s.ecode := by
  rw [consumeWord]
@[simp] theorem consumeWord_digest (b : List Byte) (s : State) : (consumeWord b s).digest = s.digest := by
  rw [consumeWord]
@[simp] theorem consumeWord_byteOrder (b : List Byte) (s : State) : (consumeWord b s).byteOrder = s.byteOrder := by
  rw [consumeWord]
@[simp] theorem consumeWord_regBase (b : List Byte) (s : State) : (consumeWord b s).regBase = s.regBase := by
  rw [consumeWord]
@[simp] theorem consumeWord_mem (b : List Byte) (s : State) : (consumeWord b s).mem = s.mem := by
  rw [consumeWord]
@[simp] theorem consumeWord_inputs (b : List Byte) (s : State) : (consumeWord b s).inputs = s.inputs := by
  rw [consumeWord]
@[simp] theorem consumeWord_rdata (b : List Byte) (s : State) : (consumeWord b s).rdata = s.rdata := by
  rw [consumeWord]
@[simp] theorem consumeWord_reads (b : List Byte) (s : State) : (consumeWord b s).reads = s.reads := by
  rw [consumeWord]
@[simp] theorem consumeWord_draws (b : List Byte) (s : State) : (consumeWord b s).draws = s.draws := by
  rw [consumeWord]

end Sys2Proof.Machine
end

