-- ==== Sys2Proof/Laws/Exec.lean ====
section
/-! SUPPORT. What each shared operation and each family of meanings can do, said once: inversion lemmas over the next
states. -/

namespace Sys2Proof.Machine

/-- The START command's three outcomes (R138, R139, R171). -/
theorem startCommand_cases (s : State) :
    (busy s.phase = true ∧ startCommand s = s) ∨
    (busy s.phase = false ∧ rangeOk s.addr s.len = true ∧ startCommand s = beginRun s) ∨
    (busy s.phase = false ∧ rangeOk s.addr s.len = false ∧ startCommand s = enterFault .iaRange s) := by
  unfold startCommand
  cases hb : busy s.phase <;> cases hr : rangeOk s.addr s.len <;> simp

/-- The range test is the comparison of R171. -/
theorem rangeOk_eq_true {a n : Word} : rangeOk a n = true ↔ a.toNat + n.toNat ≤ 4294967296 := by
  unfold rangeOk spaceSize
  exact decide_eq_true_iff

theorem busy_eq_false {p : Phase} : busy p = false ↔ p = .idle ∨ p = .done ∨ p = .fault := by
  cases p <;> simp [busy]

theorem busy_eq_true {p : Phase} :
    busy p = true ↔ p = .bulk ∨ p = .tail ∨ p = .tmix ∨ p = .lmix ∨ p = .aval := by
  cases p <;> simp [busy]

/-- What BULK can do when it has a next state (R100, R172). -/
theorem execBulk_next {s t : State} (h : execBulk s = .next t) :
    (s.rem.toNat < 4 ∧ t = { s with phase := .tail }) ∨
    (4 ≤ s.rem.toNat ∧ s.ptr.toNat + 4 ≤ spaceSize ∧
      ((∃ b, readBytes s.mem s.ptr.toNat 4 = some b ∧
          t = consumeWord b (s.logRead (busRead s.mem s.ptr.toNat 4))) ∨
        (readBytes s.mem s.ptr.toNat 4 = none ∧
          t = enterFault .iaRead (s.logRead (busRead s.mem s.ptr.toNat 4))))) := by
  unfold execBulk at h
  split at h
  · next hr =>
    refine .inr ⟨hr, ?_⟩
    simp only [bulkConsume] at h
    split at h
    · simp at h
    · next hs =>
      refine ⟨Nat.le_of_not_lt hs, ?_⟩
      split at h
      · next b hb => exact .inl ⟨b, hb, (by simpa using h.symm)⟩
      · next hb => exact .inr ⟨hb, (by simpa using h.symm)⟩
  · next hr => exact .inl ⟨by omega, (by simpa using h.symm)⟩

/-- One read of TAIL touches nothing but the record of reads. -/
theorem tailByte_cases (offset : Nat) (x : TailStep) :
    (∀ s, x = .refused s → tailByte offset x = .refused s) ∧
    (∀ t s, x = .packed t s →
      (s.rem.toNat ≤ offset ∧ tailByte offset x = .packed t s) ∨
      (offset < s.rem.toNat ∧
        ((∃ b, readBytes s.mem (s.ptr + BitVec.ofNat 32 offset).toNat 1 = some b ∧
            tailByte offset x = .packed (tailLane t offset (byteAt b 0))
              (s.logRead (busRead s.mem (s.ptr + BitVec.ofNat 32 offset).toNat 1))) ∨
          (readBytes s.mem (s.ptr + BitVec.ofNat 32 offset).toNat 1 = none ∧
            tailByte offset x = .refused
              (s.logRead (busRead s.mem (s.ptr + BitVec.ofNat 32 offset).toNat 1)))))) := by
  constructor
  · rintro s rfl; rfl
  · rintro t s rfl
    by_cases hr : offset < s.rem.toNat
    · refine .inr ⟨hr, ?_⟩
      cases hb : readBytes s.mem (s.ptr + BitVec.ofNat 32 offset).toNat 1 with
      | some b => exact .inl ⟨b, rfl, by simp only [tailByte, hr, if_true, busRead, hb]⟩
      | none => exact .inr ⟨rfl, by simp only [tailByte, hr, if_true, busRead, hb]⟩
    · exact .inl ⟨by omega, by simp [tailByte, hr]⟩

/-- The state a tail step stands in. -/
def TailStep.state : TailStep → State
  | .packed _ s => s
  | .refused s => s

/-- One read of TAIL keeps every field but `reads`. -/
theorem tailByte_state (offset : Nat) (x : TailStep) :
    (tailByte offset x).state = { x.state with reads := (tailByte offset x).state.reads } := by
  cases x with
  | refused s => rfl
  | packed t s =>
    rcases (tailByte_cases offset (.packed t s)).2 t s rfl with ⟨-, h⟩ | ⟨-, ⟨b, -, h⟩ | ⟨-, h⟩⟩ <;>
      rw [h] <;> rfl

/-- The reads of TAIL keep every field but `reads`. -/
theorem tailReads_state (s : State) :
    (tailReads s).state = { s with reads := (tailReads s).state.reads } := by
  unfold tailReads
  rw [tailByte_state, tailByte_state 1, tailByte_state 2]
  rfl

/-- What TAIL can do: it always has a next state, T and PHASE written or fault entry (R111, R172). -/
theorem execTail_cases (s : State) :
    (∃ t rs, execTail s = .next { s with t := t, phase := .tmix, reads := rs }) ∨
    (∃ rs, execTail s = .next { s with phase := .fault, ecode := causeCode .iaRead, reads := rs }) := by
  have hs := tailReads_state s
  unfold execTail
  cases h : tailReads s with
  | packed t s' =>
    rw [h] at hs
    refine .inl ⟨t, s'.reads, ?_⟩
    simp only [TailStep.state] at hs
    rw [hs]
  | refused s' =>
    rw [h] at hs
    refine .inr ⟨s'.reads, ?_⟩
    simp only [TailStep.state] at hs
    rw [hs]
    rfl

/-- What a host operation can do: it always has a next state, and that is the state itself, an operand register
written, a word returned, a free word returned, or the START command (R130 to R149). -/
theorem exec_host {i : Instr} (s : State) (hi : hostRow i = true) :
    exec i s = .next s ∨ (∃ w, exec i s = .next { s with seed := w }) ∨ (∃ w, exec i s = .next { s with len := w }) ∨
    (∃ w, exec i s = .next { s with addr := w }) ∨ (∃ w, exec i s = .next (s.returnWord w)) ∨
    (i = .rdDigest ∧ s.phase ≠ .done ∧ exec i s = .next s.returnFree) ∨
    (((∃ w, i = .start w) ∨ ∃ w, i = .wrCtrl w ∧ w.getLsbD 0 = true) ∧ exec i s = .next (startCommand s)) := by
  cases i with
  | wrSeed w => exact .inr (.inl ⟨w, rfl⟩)
  | wrLen w => exact .inr (.inr (.inl ⟨w, rfl⟩))
  | wrAddr w => exact .inr (.inr (.inr (.inl ⟨w, rfl⟩)))
  | wrCtrl w =>
    cases hw : w.getLsbD 0
    · exact .inl (by simp only [exec, execWrCtrl, hw, Bool.false_eq_true, if_false])
    · exact .inr (.inr (.inr (.inr (.inr (.inr ⟨.inr ⟨w, rfl, hw⟩, by simp only [exec, execWrCtrl, hw, if_true]⟩)))))
  | wrStatus w => exact .inl rfl
  | wrDigest w => exact .inl rfl
  | wrCfg w => exact .inl rfl
  | wrRsvd w => exact .inl rfl
  | rdSeed => exact .inr (.inr (.inr (.inr (.inl ⟨_, rfl⟩))))
  | rdLen => exact .inr (.inr (.inr (.inr (.inl ⟨_, rfl⟩))))
  | rdAddr => exact .inr (.inr (.inr (.inr (.inl ⟨_, rfl⟩))))
  | rdCtrl => exact .inr (.inr (.inr (.inr (.inl ⟨_, rfl⟩))))
  | rdStatus => exact .inr (.inr (.inr (.inr (.inl ⟨_, rfl⟩))))
  | rdDigest =>
    by_cases hp : s.phase = .done
    · exact .inr (.inr (.inr (.inr (.inl ⟨s.digest, by simp [exec, execRdDigest, hp]⟩))))
    · exact .inr (.inr (.inr (.inr (.inr (.inl ⟨rfl, hp, by simp [exec, execRdDigest, hp]⟩)))))
  | rdCfg => exact .inr (.inr (.inr (.inr (.inl ⟨_, rfl⟩))))
  | rdRsvd => exact .inr (.inr (.inr (.inr (.inl ⟨_, rfl⟩))))
  | start w => exact .inr (.inr (.inr (.inr (.inr (.inr ⟨.inl ⟨w, rfl⟩, rfl⟩)))))
  | ctrlNop w => exact .inl rfl
  | idle => simp [hostRow] at hi
  | bulk => simp [hostRow] at hi
  | tail => simp [hostRow] at hi
  | tmix => simp [hostRow] at hi
  | lmix => simp [hostRow] at hi
  | aval => simp [hostRow] at hi
  | done => simp [hostRow] at hi
  | fault => simp [hostRow] at hi

end Sys2Proof.Machine
end

