-- ==== Sys2Proof/Laws/Memory.lean ====
section
/-! SUPPORT. Laws of the platform's memory and of the read primitive (20_memory.md R51): a change is read back where it
was made and nowhere else, and the canonical form is kept. -/

namespace Sys2Proof.Machine

@[simp] theorem Memory.read_nil (x : Nat) : Memory.read [] x = none := rfl

theorem Memory.read_cons (a : Nat) (b : Byte) (m : Memory) (x : Nat) :
    Memory.read ((a, b) :: m) x = if a = x then some b else Memory.read m x := rfl

/-- An address below every listed one reads as not readable. -/
theorem Memory.read_below {m : Memory} {x : Nat} (h : ∀ c ∈ m, x < c.1) : m.read x = none := by
  induction m with
  | nil => rfl
  | cons c m ih =>
    obtain ⟨a, b⟩ := c
    have ha : x < a := h (a, b) (by simp)
    rw [Memory.read_cons, if_neg (by omega)]
    exact ih fun c hc => h c (by simp [hc])

theorem Memory.read_cell (m : Memory) (x : Nat) (v : Option Byte) (y : Nat) :
    (Memory.cell x v m).read y = if x = y ∧ v.isSome then v else m.read y := by
  cases v with
  | none => simp [Memory.cell]
  | some b => simp [Memory.cell, Memory.read_cons]

/-- A change leaves every other address alone. -/
theorem Memory.read_set_other (m : Memory) {x y : Nat} (v : Option Byte) (h : y ≠ x) :
    (m.set x v).read y = m.read y := by
  induction m with
  | nil => simp [Memory.set, Memory.read_cell, Ne.symm h]
  | cons c m ih =>
    obtain ⟨a, b⟩ := c
    simp only [Memory.set]
    split
    · simp [Memory.read_cell, Ne.symm h]
    · split
      · next hx => subst hx; simp [Memory.read_cell, Memory.read_cons, Ne.symm h]
      · simp [Memory.read_cons, ih]

/-- A change is read back at its address. -/
theorem Memory.read_set_same {m : Memory} (hm : m.wf) (x : Nat) (v : Option Byte) :
    (m.set x v).read x = v := by
  induction m with
  | nil => cases v <;> simp [Memory.set, Memory.read_cell]
  | cons c m ih =>
    obtain ⟨a, b⟩ := c
    obtain ⟨hp, hb⟩ := hm
    rw [List.pairwise_cons] at hp
    simp only [Memory.set]
    split
    · next hx =>
      have : Memory.read ((a, b) :: m) x = none := by
        apply Memory.read_below
        intro c hc
        rcases List.mem_cons.1 hc with rfl | hc
        · exact hx
        · exact lt_trans hx (hp.1 c hc)
      cases v <;> simp [Memory.read_cell, this]
    · split
      · next hx =>
        subst hx
        have : Memory.read m x = none := Memory.read_below hp.1
        cases v <;> simp [Memory.read_cell, this]
      · next hx =>
        rw [Memory.read_cons, if_neg (Ne.symm hx)]
        exact ih ⟨hp.2, fun c hc => hb c (by simp [hc])⟩

/-- Only listed addresses and the changed one are listed after a change. -/
theorem Memory.mem_set {m : Memory} {x : Nat} {v : Option Byte} {c : Host.Cell} (h : c ∈ m.set x v) :
    c ∈ m ∨ c.1 = x := by
  induction m with
  | nil => cases v <;> simp_all [Memory.set, Memory.cell]
  | cons d m ih =>
    obtain ⟨a, b⟩ := d
    simp only [Memory.set] at h
    split at h
    · cases v <;> simp only [Memory.cell, List.mem_cons] at h ⊢
      · tauto
      · rcases h with rfl | h <;> tauto
    · split at h
      · cases v <;> simp only [Memory.cell, List.mem_cons] at h ⊢
        · tauto
        · rcases h with rfl | h <;> tauto
      · rcases List.mem_cons.1 h with rfl | h
        · exact .inl (by simp)
        · rcases ih h with h | h
          · exact .inl (by simp [h])
          · exact .inr h

/-- A change at an address of the buffer space keeps the canonical form. -/
theorem Memory.set_wf {m : Memory} (hm : m.wf) {x : Nat} (hx : x < 4294967296) (v : Option Byte) :
    (m.set x v).wf := by
  constructor
  · induction m with
    | nil => cases v <;> simp [Memory.set, Memory.cell]
    | cons c m ih =>
      obtain ⟨a, b⟩ := c
      obtain ⟨hp, hb⟩ := hm
      rw [List.pairwise_cons] at hp
      have below : ∀ {y}, y ≤ a → ∀ c ∈ m, y < c.1 := fun hy c hc => lt_of_le_of_lt hy (hp.1 c hc)
      simp only [Memory.set]
      split
      · next h =>
        cases v with
        | none => exact List.pairwise_cons.2 hp
        | some w =>
          refine List.pairwise_cons.2 ⟨?_, List.pairwise_cons.2 hp⟩
          intro c hc
          rcases List.mem_cons.1 hc with rfl | hc
          · exact h
          · exact below h.le c hc
      · split
        · next h =>
          cases v with
          | none => exact hp.2
          | some w => exact List.pairwise_cons.2 ⟨below h.le, hp.2⟩
        · next h1 h2 =>
          refine List.pairwise_cons.2 ⟨?_, ih ⟨hp.2, fun c hc => hb c (by simp [hc])⟩⟩
          intro c hc
          rcases Memory.mem_set hc with hc | hc
          · exact hp.1 c hc
          · simp only; omega
  · intro c hc
    rcases Memory.mem_set hc with hc | hc
    · exact hm.2 c hc
    · omega

theorem reset_mem_wf : State.reset.mem.wf := by decide

@[simp] theorem readBytes_zero (m : Memory) (a : Nat) : readBytes m a 0 = some [] := rfl

/-- A read of one byte is that byte or nothing (R51). -/
theorem readBytes_one (m : Memory) (a : Nat) : readBytes m a 1 = (m.read a).map fun b => [b] := by
  cases h : m.read a <;> simp [readBytes, h]

/-- A read takes its first byte and the read of the others, or nothing. -/
theorem readBytes_succ_some {m : Memory} {a n : Nat} {bs : List Byte} (h : readBytes m a (n + 1) = some bs) :
    ∃ b rest, m.read a = some b ∧ readBytes m (a + 1) n = some rest ∧ bs = b :: rest := by
  simp only [readBytes] at h
  split at h
  · next b rest hb hr => exact ⟨b, rest, hb, hr, by simpa using h.symm⟩
  · simp at h

@[simp] theorem busRead_answer (m : Memory) (a n : Nat) : (busRead m a n).answer = readBytes m a n := rfl

end Sys2Proof.Machine
end

