-- ==== Sys2Proof/Laws/PerInstr.lean ====
section
/-! SUPPORT. Per constructor of `Instr`: the encoding of a well-formed operation carries, under its row's mask, the
row's match, both written out from spec/opcode_table.json. -/

namespace Sys2Proof.Laws.EncodingRow

/-- The number the opcode table's match and mask are over: the HOST header, the CTRL word, the PHASE code. -/
def number : OpWord → Nat
  | .host header _ => header.toNat
  | .ctrl w => w.toNat
  | .phase code => code.toNat

/-- The mask and the match of each row. -/
def row : Instr → Nat × Nat
  | .wrSeed _ => (0x3F, 0x20)
  | .wrLen _ => (0x3F, 0x24)
  | .wrAddr _ => (0x3F, 0x28)
  | .wrCtrl _ => (0x3F, 0x2C)
  | .wrStatus _ => (0x3F, 0x30)
  | .wrDigest _ => (0x3F, 0x34)
  | .wrCfg _ => (0x3F, 0x38)
  | .wrRsvd _ => (0x3F, 0x3C)
  | .rdSeed => (0x3F, 0x00)
  | .rdLen => (0x3F, 0x04)
  | .rdAddr => (0x3F, 0x08)
  | .rdCtrl => (0x3F, 0x0C)
  | .rdStatus => (0x3F, 0x10)
  | .rdDigest => (0x3F, 0x14)
  | .rdCfg => (0x3F, 0x18)
  | .rdRsvd => (0x3F, 0x1C)
  | .start _ => (0x00000001, 0x00000001)
  | .ctrlNop _ => (0x00000001, 0x00000000)
  | .idle => (0x7, 0x0)
  | .bulk => (0x7, 0x1)
  | .tail => (0x7, 0x2)
  | .tmix => (0x7, 0x3)
  | .lmix => (0x7, 0x4)
  | .aval => (0x7, 0x5)
  | .done => (0x7, 0x6)
  | .fault => (0x7, 0x7)

/-- The encoding of a well-formed operation lies in its row of the opcode table. -/
def Statement (i : Instr) : Prop :=
  i.wellFormed = true → number (encode i) &&& (row i).1 = (row i).2

theorem wrSeed (w : Word) : Statement (.wrSeed w) := by
  intro _
  change (0x20#6).toNat &&& 0x3F = 0x20
  decide
theorem wrLen (w : Word) : Statement (.wrLen w) := by
  intro _
  change (0x24#6).toNat &&& 0x3F = 0x24
  decide
theorem wrAddr (w : Word) : Statement (.wrAddr w) := by
  intro _
  change (0x28#6).toNat &&& 0x3F = 0x28
  decide
theorem wrCtrl (w : Word) : Statement (.wrCtrl w) := by
  intro _
  change (0x2C#6).toNat &&& 0x3F = 0x2C
  decide
theorem wrStatus (w : Word) : Statement (.wrStatus w) := by
  intro _
  change (0x30#6).toNat &&& 0x3F = 0x30
  decide
theorem wrDigest (w : Word) : Statement (.wrDigest w) := by
  intro _
  change (0x34#6).toNat &&& 0x3F = 0x34
  decide
theorem wrCfg (w : Word) : Statement (.wrCfg w) := by
  intro _
  change (0x38#6).toNat &&& 0x3F = 0x38
  decide
theorem wrRsvd (w : Word) : Statement (.wrRsvd w) := by
  intro _
  change (0x3C#6).toNat &&& 0x3F = 0x3C
  decide
theorem rdSeed : Statement .rdSeed := fun _ => rfl
theorem rdLen : Statement .rdLen := fun _ => rfl
theorem rdAddr : Statement .rdAddr := fun _ => rfl
theorem rdCtrl : Statement .rdCtrl := fun _ => rfl
theorem rdStatus : Statement .rdStatus := fun _ => rfl
theorem rdDigest : Statement .rdDigest := fun _ => rfl
theorem rdCfg : Statement .rdCfg := fun _ => rfl
theorem rdRsvd : Statement .rdRsvd := fun _ => rfl

/-- Bit 0 of a word is its value under the mask 1. -/
theorem and_one_eq_bit0 (w : Word) : w.toNat &&& 1 = (w.getLsbD 0).toNat := by
  rw [Nat.and_one_is_mod, BitVec.getLsbD, Nat.testBit_zero]
  rcases Nat.mod_two_eq_zero_or_one w.toNat with h | h <;> simp [h]

theorem start (w : Word) : Statement (.start w) := by
  intro h
  change w.getLsbD 0 = true at h
  change w.toNat &&& 1 = 1
  rw [and_one_eq_bit0, h, Bool.toNat_true]

theorem ctrlNop (w : Word) : Statement (.ctrlNop w) := by
  intro h
  change (!w.getLsbD 0) = true at h
  change w.toNat &&& 1 = 0
  rw [and_one_eq_bit0, Bool.eq_false_of_not_eq_true' h, Bool.toNat_false]

theorem idle : Statement .idle := fun _ => rfl
theorem bulk : Statement .bulk := fun _ => rfl
theorem tail : Statement .tail := fun _ => rfl
theorem tmix : Statement .tmix := fun _ => rfl
theorem lmix : Statement .lmix := fun _ => rfl
theorem aval : Statement .aval := fun _ => rfl
theorem done : Statement .done := fun _ => rfl
theorem fault : Statement .fault := fun _ => rfl

end Sys2Proof.Laws.EncodingRow
end

