-- ==== Sys2Proof/Laws/Step.lean ====
section
/-! SUPPORT. What one step can be, said once: whose turn it is and what it comes to (00_scope.md R15). -/

namespace Sys2Proof.Machine

theorem step_nil {s : State} (h : s.inputs = []) : step s = exec (decodePhase s.phase) s := by
  simp [step, nextTurn, h, sequencerTurn]

theorem step_sequencer {s : State} {rest : List Event} (h : s.inputs = .sequencer :: rest) :
    step s = exec (decodePhase s.phase) (s.take rest) := by
  simp [step, nextTurn, h, sequencerTurn]

theorem step_host {s : State} {a : Access} {rest : List Event} {i : Instr} (h : s.inputs = .host a :: rest)
    (ha : decodeAccess s.regBase a = .instr i) : step s = exec i (s.take rest) := by
  simp [step, nextTurn, h, hostTurn, ha]

theorem step_unmatched {s : State} {a : Access} {rest : List Event} {e : DecodeError}
    (h : s.inputs = .host a :: rest) (ha : decodeAccess s.regBase a = .rejected e) :
    step s = .next (unmatchedAccess a (s.take rest)) := by
  simp [step, nextTurn, h, hostTurn, ha]

theorem step_command {s : State} {w : Word} {rest : List Event} (h : s.inputs = .command w :: rest) :
    step s = exec (decodeCtrl w) (s.take rest) := by
  simp [step, nextTurn, h]

theorem step_reset {s : State} {rest : List Event} (h : s.inputs = .reset :: rest) :
    step s = .next (platformReset (s.take rest)) := by
  simp [step, nextTurn, h]

theorem step_memory {s : State} {x : Word} {v : Option Byte} {rest : List Event}
    (h : s.inputs = .memory x v :: rest) : step s = .next (changeMemory x v (s.take rest)) := by
  simp [step, nextTurn, h]

/-- An access that decodes, and a command, is an operation of the host's rows. -/
theorem decodeOffset_hostRow {we : Bool} {o n : Nat} {w : Word} {i : Instr} (h : decodeOffset we o n w = .instr i) :
    hostRow i = true := by
  simp only [decodeOffset] at h
  split at h
  · simp at h
  · split at h
    · simp at h
    · split at h
      · simp at h
      · simp only [decodeHost] at h
        split at h <;> first | (cases h; rfl) | simp at h

/-- At an offset of the block the mapping does not matter (R58). -/
@[simp] theorem decodeAccess_offset (base : Nat) (we : Bool) (o n : Nat) (w : Word) :
    decodeAccess base ⟨we, base + o, n, w⟩ = decodeOffset we o n w := by
  simp [decodeAccess]

theorem decodeAccess_hostRow {base : Nat} {a : Access} {i : Instr} (h : decodeAccess base a = .instr i) :
    hostRow i = true := by
  unfold decodeAccess at h
  split at h
  · simp at h
  · exact decodeOffset_hostRow h

theorem decodeCtrl_hostRow (w : Word) : hostRow (decodeCtrl w) = true := by
  unfold decodeCtrl
  split <;> rfl

/-- A step is the performance of an operation by the sequencer or by the host, an access that matches nothing, a reset,
or a change of memory. -/
theorem step_cases (s : State) :
    (∃ s', sequencersTurn s = true ∧ (s' = s ∨ ∃ rest, s.inputs = .sequencer :: rest ∧ s' = s.take rest) ∧
      step s = exec (decodePhase s.phase) s') ∨
    (∃ e rest i, s.inputs = e :: rest ∧ hostRow i = true ∧
      ((∃ a, e = .host a ∧ decodeAccess s.regBase a = .instr i) ∨ ∃ w, e = .command w ∧ i = decodeCtrl w) ∧
      step s = exec i (s.take rest)) ∨
    (∃ a rest, s.inputs = .host a :: rest ∧ step s = .next (unmatchedAccess a (s.take rest))) ∨
    (∃ rest, s.inputs = .reset :: rest ∧ step s = .next (platformReset (s.take rest))) ∨
    (∃ x v rest, s.inputs = .memory x v :: rest ∧ step s = .next (changeMemory x v (s.take rest))) := by
  cases h : s.inputs with
  | nil => exact .inl ⟨s, by simp [sequencersTurn, h], .inl rfl, step_nil h⟩
  | cons e rest =>
    cases e with
    | sequencer => exact .inl ⟨_, by simp [sequencersTurn, h], .inr ⟨rest, rfl, rfl⟩, step_sequencer h⟩
    | host a =>
      cases ha : decodeAccess s.regBase a with
      | instr i =>
        exact .inr (.inl ⟨_, rest, i, rfl, decodeAccess_hostRow ha, .inl ⟨a, rfl, ha⟩, step_host h ha⟩)
      | rejected r => exact .inr (.inr (.inl ⟨a, rest, rfl, step_unmatched h ha⟩))
    | command w =>
      exact .inr (.inl ⟨_, rest, _, rfl, decodeCtrl_hostRow w, .inr ⟨w, rfl, rfl⟩, step_command h⟩)
    | reset => exact .inr (.inr (.inr (.inl ⟨rest, rfl, step_reset h⟩)))
    | memory x v => exact .inr (.inr (.inr (.inr ⟨x, v, rest, rfl, step_memory h⟩)))

/-! ### Runs -/

@[simp] theorem runSteps_zero (s : State) : runSteps 0 s = .next s := rfl

theorem runSteps_succ {s s' : State} (n : Nat) (h : step s = .next s') : runSteps (n + 1) s = runSteps n s' := by
  simp [runSteps, h]

/-- A run of `m + n` steps is a run of `m` and then one of `n`. -/
theorem runSteps_add {m n : Nat} {s s' : State} (h : runSteps m s = .next s') :
    runSteps (m + n) s = runSteps n s' := by
  induction m generalizing s with
  | zero => simp only [runSteps_zero, Host.Outcome.next.injEq] at h; subst h; simp
  | succ m ih =>
    rw [Nat.add_right_comm]
    simp only [runSteps] at h ⊢
    split at h
    · exact ih h
    · simp at h
    · simp at h

end Sys2Proof.Machine
end

