-- ==== Sys2Proof/Tests/Slice0.lean ====
section
/-! SUPPORT. The model's own tests: the check of WellFormed, words decoded by hand from the tables of
30_encoding.md, values of 95_test_vectors.md on one step each, and for each obligation with hypotheses a named witness
that meets them. Expected values are the spec's. -/

namespace Sys2Proof.Tests

open Sys2Proof.Machine

/-! ### Helpers -/

/-- The state an outcome gives; a stop gives the reset state. -/
def after : Result → State
  | .next s => s
  | .fault _ => State.reset
  | .refused _ => State.reset

/-- The reset state in a phase. -/
def inPhase (p : Phase) : State := { State.reset with phase := p }

/-- `41 42 43 44 45` at 0x1000 (program P2). -/
def abcde : Memory := [(0x1000, 0x41#8), (0x1001, 0x42#8), (0x1002, 0x43#8), (0x1003, 0x44#8), (0x1004, 0x45#8)]

/-- `41 42 43 44` at 0xfffffffc, the top of the buffer space (trace T13). -/
def topFour : Memory :=
  [(0xfffffffc, 0x41#8), (0xfffffffd, 0x42#8), (0xfffffffe, 0x43#8), (0xffffffff, 0x44#8)]

/-- A host that has written LEN and ADDR on a platform's memory. -/
def ready (m : Memory) (addr len : Word) : State := { State.reset with mem := m, addr := addr, len := len }

/-- A busy engine in mid-run: PTR and REM as given. -/
def busyAt (p : Phase) (m : Memory) (ptr rem : Word) : State :=
  { State.reset with phase := p, mem := m, ptr := ptr, rem := rem, l := rem }

/-- DONE as trace T6 leaves it. -/
def doneState : State :=
  { State.reset with phase := .done, h := 0xb1ba30ac#32, digest := 0xb1ba30ac#32, rem := 1 }

/-- FAULT with a cause. -/
def faultState (c : BitVec 4) : State := { State.reset with phase := .fault, ecode := c }

/-! ### WellFormed -/

theorem test_wellFormed_refuses_start_without_bit0 : (Instr.start 0xFFFFFFFE#32).wellFormed = false := by decide

theorem test_wellFormed_refuses_ctrlNop_with_bit0 : (Instr.ctrlNop 0x00000001#32).wellFormed = false := by decide

theorem test_wellFormed_accepts :
    (Instr.start 0xFFFFFFFF#32).wellFormed = true ∧ (Instr.ctrlNop 0xFFFFFFFE#32).wellFormed = true := by decide

/-! ### Decoding (R72, R73, R76, R79) -/

theorem test_decode_host_writes :
    decode (.host 0b100000#6 7#32) = .instr (.wrSeed 7#32) ∧ decode (.host 0b100100#6 7#32) = .instr (.wrLen 7#32) ∧
    decode (.host 0b101000#6 7#32) = .instr (.wrAddr 7#32) ∧ decode (.host 0b101100#6 7#32) = .instr (.wrCtrl 7#32) ∧
    decode (.host 0b110000#6 7#32) = .instr (.wrStatus 7#32) ∧
    decode (.host 0b110100#6 7#32) = .instr (.wrDigest 7#32) ∧
    decode (.host 0b111000#6 7#32) = .instr (.wrCfg 7#32) ∧
    decode (.host 0b111100#6 7#32) = .instr (.wrRsvd 7#32) := by decide

theorem test_decode_host_reads :
    decode (.host 0b000000#6 0#32) = .instr .rdSeed ∧ decode (.host 0b000100#6 0#32) = .instr .rdLen ∧
    decode (.host 0b001000#6 0#32) = .instr .rdAddr ∧ decode (.host 0b001100#6 0#32) = .instr .rdCtrl ∧
    decode (.host 0b010000#6 0#32) = .instr .rdStatus ∧ decode (.host 0b010100#6 0#32) = .instr .rdDigest ∧
    decode (.host 0b011000#6 0#32) = .instr .rdCfg ∧ decode (.host 0b011100#6 0#32) = .instr .rdRsvd := by decide

theorem test_decode_ctrl :
    decode (.ctrl 0x00000001#32) = .instr (.start 0x00000001#32) ∧
    decode (.ctrl 0xFFFFFFFF#32) = .instr (.start 0xFFFFFFFF#32) ∧
    decode (.ctrl 0x00000000#32) = .instr (.ctrlNop 0x00000000#32) ∧
    decode (.ctrl 0xFFFFFFFE#32) = .instr (.ctrlNop 0xFFFFFFFE#32) := by decide

theorem test_decode_phase :
    decode (.phase 0b000#3) = .instr .idle ∧ decode (.phase 0b001#3) = .instr .bulk ∧
    decode (.phase 0b010#3) = .instr .tail ∧ decode (.phase 0b011#3) = .instr .tmix ∧
    decode (.phase 0b100#3) = .instr .lmix ∧ decode (.phase 0b101#3) = .instr .aval ∧
    decode (.phase 0b110#3) = .instr .done ∧ decode (.phase 0b111#3) = .instr .fault := by decide

theorem test_decode_rejects_misaligned_headers :
    decode (.host 0b000001#6 0#32) = .rejected .misalignedOffset ∧
    decode (.host 0b111110#6 0#32) = .rejected .misalignedOffset := by decide

theorem test_decodeAccess_rejects_by_name :
    decodeAccess 0x40000003 ⟨false, 0x40000005, 4, 0#32⟩ = .rejected .misalignedOffset ∧
    decodeAccess 0x40000000 ⟨true, 0x40000020, 4, 0#32⟩ = .rejected .offsetAboveBlock ∧
    decodeAccess 0x40000000 ⟨true, 0x40000000, 2, 0#32⟩ = .rejected .notA32BitAccess ∧
    decodeAccess 0x40000000 ⟨true, 0x3FFFFFFC, 4, 0#32⟩ = .rejected .belowBlock := by decide

/-- R71: the offset counts from REG_BASE. -/
theorem test_decodeAccess_counts_from_regBase :
    decodeAccess 0x40000000 ⟨true, 0x4000001C, 4, 5#32⟩ = .instr (.wrRsvd 5#32) ∧
    decodeAccess 0x40000000 ⟨false, 0x40000014, 4, 0#32⟩ = .instr .rdDigest ∧
    decodeAccess 0 ⟨true, 0x00, 4, 5#32⟩ = .instr (.wrSeed 5#32) := by decide

theorem test_decodeTableWord :
    decodeTableWord 8 0x20 = some (.wrSeed 0#32) ∧ decodeTableWord 40 0x0520 = some (.wrSeed 5#32) ∧
    decodeTableWord 8 0x1C = some .rdRsvd ∧ decodeTableWord 32 1 = some (.start 1#32) ∧
    decodeTableWord 32 0 = some (.ctrlNop 0#32) ∧ decodeTableWord 3 4 = some .lmix ∧
    decodeTableWord 8 0x06 = some .done ∧ decodeTableWord 8 0x21 = none := by decide

theorem test_withFetchWord_runs_the_word :
    (after (step (State.reset.withFetchWord 40 0x0520))).seed = 5#32 ∧
    (after (step (State.reset.withFetchWord 32 1))).phase = .bulk ∧
    (after (step (State.reset.withFetchWord 3 5))).phase = .done ∧
    (after (step ({ State.reset with regBase := 0x40000000 }.withFetchWord 40 0x0524))).len = 5#32 := by decide

/-! ### The datapath functions (95_test_vectors.md 2.1 to 2.4) -/

/-- M5, M6, M14. -/
theorem test_mix_rows :
    mix 0xffffffff#32 0xffffffff#32 = (0x11babb10#32, 0xb594ad7b#32) ∧
    mix 0x12345678#32 0x9abcdef0#32 = (0xc96c4680#32, 0xb24dcd58#32) ∧
    mix 0xcbbefd45#32 0x00000045#32 = (0x4a1b4067#32, 0xfd19764e#32) := by decide

/-- M7: the shift is logical and follows the product. -/
theorem test_mix_top_bit : mix 0x00000000#32 0x80000000#32 = (0x68f4ca80#32, 0x68f4ca80#32) := by decide

/-- X4, X12: rows that tell a logical shift from an arithmetic one; X9. -/
theorem test_fmix_rows :
    fmix 0x80000000#32 = 0x26544ca8#32 ∧ fmix 0xfffff000#32 = 0x761f8a55#32 ∧
    fmix 0x49797a39#32 = 0xb1ba30ac#32 := by decide

/-- W1, W3. -/
theorem test_word_rows :
    word .le [0x41#8, 0x42#8, 0x43#8, 0x44#8] = 0x44434241#32 ∧
    word .be [0x41#8, 0x42#8, 0x43#8, 0x44#8] = 0x41424344#32 ∧
    word .le [0x80#8, 0x00#8, 0x00#8, 0x00#8] = 0x00000080#32 ∧
    word .be [0x80#8, 0x00#8, 0x00#8, 0x00#8] = 0x80000000#32 := by decide

/-- P-1, P-5, P-8, P-10, P-12. -/
theorem test_tailPack_rows :
    tailPack 0 [] = 0x00000000#32 ∧ tailPack 1 [0x80#8] = 0x00000080#32 ∧
    tailPack 2 [0x00#8, 0xff#8] = 0x0000ff00#32 ∧ tailPack 3 [0xff#8, 0xff#8, 0xff#8] = 0x00ffffff#32 ∧
    tailPack 3 [0x72#8, 0x6c#8, 0x64#8] = 0x00646c72#32 := by decide

/-- V1 (R155), V31. -/
theorem test_hash_of_the_empty_buffer :
    refHash .le [] 0#32 = 0x00000000#32 ∧ refHash .be [] 0#32 = 0x00000000#32 ∧
    refHash .le [] 1#32 = 0xee23d1b5#32 := by decide

/-- V6, V37 (R163). -/
theorem test_hash_of_abcde :
    refHash .le [0x41#8, 0x42#8, 0x43#8, 0x44#8, 0x45#8] 0#32 = 0xb1ba30ac#32 ∧
    refHash .be [0x41#8, 0x42#8, 0x43#8, 0x44#8, 0x45#8] 0#32 = 0x327fed9b#32 ∧
    refHash .le [0x41#8, 0x42#8, 0x43#8, 0x44#8, 0x45#8] 1#32 = 0xc5590ff8#32 := by decide

/-- V21: "hello world", two words and a tail of three. -/
theorem test_hash_of_hello_world :
    refHash .le [0x68#8, 0x65#8, 0x6c#8, 0x6c#8, 0x6f#8, 0x20#8, 0x77#8, 0x6f#8, 0x72#8, 0x6c#8, 0x64#8] 0#32
      = 0x9dfc8997#32 ∧
    refHash .be [0x68#8, 0x65#8, 0x6c#8, 0x6c#8, 0x6f#8, 0x20#8, 0x77#8, 0x6f#8, 0x72#8, 0x6c#8, 0x64#8] 0#32
      = 0x00aab4d2#32 := by decide

/-- R56: the reads of trace T9. -/
theorem test_footprint_of_T9 :
    footprint 0x2001 11 = [(0x2001, 4), (0x2005, 4), (0x200b, 1), (0x200a, 1), (0x2009, 1)] := by decide

/-! ### Host operations (95_test_vectors.md 4.1) -/

/-- H10. -/
theorem test_wrSeed : (after (exec (.wrSeed 0xdeadbeef#32) (inPhase .idle))).seed = 0xdeadbeef#32 := by decide

/-- H27: a write while busy leaves H. -/
theorem test_wrSeed_while_busy :
    (after (exec (.wrSeed 1#32) { inPhase .bulk with h := 0xcbbefd45#32 })).h = 0xcbbefd45#32 := by decide

/-- H11. -/
theorem test_wrLen : (after (exec (.wrLen 5#32) (inPhase .idle))).len = 5#32 := by decide

/-- H28: a write while busy leaves L and REM. -/
theorem test_wrLen_while_busy :
    (after (exec (.wrLen 0x100#32) (busyAt .bulk [] 0 5))).rem = 5#32 ∧
    (after (exec (.wrLen 0x100#32) (busyAt .bulk [] 0 5))).l = 5#32 := by decide

/-- H12. -/
theorem test_wrAddr : (after (exec (.wrAddr 0x1000#32) (inPhase .idle))).addr = 0x1000#32 := by decide

/-- H22: reserved bits of the word are ignored. -/
theorem test_wrCtrl_all_ones_is_start :
    (after (exec (.wrCtrl 0xffffffff#32) (ready abcde 0x1000 5))).phase = .bulk := by decide

/-- H21. -/
theorem test_wrCtrl_without_bit0 :
    (after (exec (.wrCtrl 0xfffffffe#32) (ready abcde 0x1000 5))).phase = .idle := by decide

/-- H23. -/
theorem test_wrStatus : after (exec (.wrStatus 0xffffffff#32) doneState) = doneState := by decide

/-- H24. -/
theorem test_wrDigest : (after (exec (.wrDigest 0#32) doneState)).digest = 0xb1ba30ac#32 := by decide

/-- H25. -/
theorem test_wrCfg : (after (exec (.wrCfg 1#32) (inPhase .idle))).byteOrder = .le := by decide

/-- H26. -/
theorem test_wrRsvd : after (exec (.wrRsvd 0x12345678#32) doneState) = doneState := by decide

/-- H1 and the example of R135. -/
theorem test_rdSeed :
    (after (exec .rdSeed (inPhase .idle))).rdata = 0#32 ∧
    (after (exec .rdSeed { inPhase .bulk with seed := 1#32 })).rdata = 1#32 := by decide

/-- R136: LEN, not L and not REM. -/
theorem test_rdLen :
    (after (exec .rdLen { busyAt .bulk abcde 0x1000 5 with len := 0x100#32 })).rdata = 0x100#32 := by decide

/-- R137: ADDR, not PTR. -/
theorem test_rdAddr :
    (after (exec .rdAddr { busyAt .bulk abcde 0x1004 1 with addr := 0x1000#32 })).rdata = 0x1000#32 := by decide

/-- H8. -/
theorem test_rdCtrl : (after (exec .rdCtrl { doneState with rdata := 9#32 })).rdata = 0#32 := by decide

/-- H4, H29, H30. -/
theorem test_rdStatus :
    (after (exec .rdStatus (inPhase .idle))).rdata = 0x00000000#32 ∧
    (after (exec .rdStatus (inPhase .tmix))).rdata = 0x00000001#32 ∧
    (after (exec .rdStatus doneState)).rdata = 0x00000002#32 := by decide

/-- H31, H32. -/
theorem test_rdStatus_in_fault :
    (after (exec .rdStatus (faultState 1#4))).rdata = 0x00000014#32 ∧
    (after (exec .rdStatus (faultState 2#4))).rdata = 0x00000024#32 := by decide

/-- H33. -/
theorem test_rdDigest : (after (exec .rdDigest doneState)).rdata = 0xb1ba30ac#32 := by decide

/-- H34: outside DONE a new free value is drawn; nothing is said of which. -/
theorem test_rdDigest_outside_done : (after (exec .rdDigest (inPhase .lmix))).draws = 1 := by decide

/-- H6, H7. -/
theorem test_rdCfg :
    (after (exec .rdCfg (inPhase .aval))).rdata = 0#32 ∧
    (after (exec .rdCfg { inPhase .aval with byteOrder := .be })).rdata = 1#32 := by decide

/-- H9. -/
theorem test_rdRsvd : (after (exec .rdRsvd { doneState with rdata := 9#32 })).rdata = 0#32 := by decide

/-! ### Commands -/

/-- H14: START from DONE; DIGEST is not written. -/
theorem test_start_from_done :
    after (exec (.start 1#32) { doneState with seed := 1, len := 5, addr := 0x1000 }) =
      { doneState with
        seed := 1, len := 5, addr := 0x1000, h := 1, l := 5, rem := 5, ptr := 0x1000, phase := .bulk } := by decide

/-- H17, F3: the range test is on the unbounded sum. -/
theorem test_start_range :
    (after (exec (.start 1#32) { faultState 2#4 with addr := 2, len := 0xffffffff#32 })).ecode = 1#4 ∧
    (after (exec (.start 1#32) { faultState 2#4 with addr := 1, len := 0xffffffff#32 })).phase = .bulk := by decide

/-- H20. -/
theorem test_ctrlNop : after (exec (.ctrlNop 0#32) (faultState 2#4)) = faultState 2#4 := by decide

/-! ### Sequencer operations (95_test_vectors.md 5) -/

/-- T6, first BULK line; T7 on a BE instance. -/
theorem test_bulk_consumes :
    after (exec .bulk (busyAt .bulk abcde 0x1000 5)) =
      { busyAt .bulk abcde 0x1000 5 with
        k := 0xcbbefd45#32, h := 0xcbbefd45#32, ptr := 0x1004, rem := 1
        reads := [⟨0x1000, 4, some [0x41#8, 0x42#8, 0x43#8, 0x44#8]⟩] } ∧
    (after (exec .bulk { busyAt .bulk abcde 0x1000 5 with byteOrder := .be })).h = 0xb36a5d99#32 := by decide

/-- F11: one unreadable byte refuses the whole read, and nothing else is written. -/
theorem test_bulk_refused :
    after (exec .bulk (busyAt .bulk abcde 0x1002 4)) =
      { busyAt .bulk abcde 0x1002 4 with phase := .fault, ecode := 2#4, reads := [⟨0x1002, 4, none⟩] } := by decide

/-- T9, TAIL: three bytes in descending order. -/
theorem test_tail_of_three :
    after (exec .tail (busyAt .tail abcde 0x1002 3)) =
      { busyAt .tail abcde 0x1002 3 with
        t := 0x00454443#32, phase := .tmix
        reads := [⟨0x1004, 1, some [0x45#8]⟩, ⟨0x1003, 1, some [0x44#8]⟩, ⟨0x1002, 1, some [0x43#8]⟩] } := by decide

/-- F8: the first refused read ends the step; later reads are not made. -/
theorem test_tail_refused :
    after (exec .tail (busyAt .tail abcde 0x1003 3)) =
      { busyAt .tail abcde 0x1003 3 with phase := .fault, ecode := 2#4, reads := [⟨0x1005, 1, none⟩] } := by decide

/-- T6, TMIX line. -/
theorem test_tmix :
    after (exec .tmix { inPhase .tmix with h := 0xcbbefd45#32, t := 0x45#32 }) =
      { inPhase .lmix with h := 0x4a1b4067#32, t := 0xfd19764e#32 } := by decide

/-- T6, LMIX line. -/
theorem test_lmix :
    after (exec .lmix { inPhase .lmix with h := 0x4a1b4067#32, l := 5#32 }) =
      { inPhase .aval with h := 0x49797a39#32, l := 0x69e840ca#32 } := by decide

/-- T6, AVAL line. -/
theorem test_aval :
    after (exec .aval { inPhase .aval with h := 0x49797a39#32 }) =
      { inPhase .done with h := 0xb1ba30ac#32, digest := 0xb1ba30ac#32 } := by decide

/-- R124, R126, R127. -/
theorem test_holds :
    after (exec .idle (inPhase .idle)) = inPhase .idle ∧ after (exec .done doneState) = doneState ∧
    after (exec .fault (faultState 1#4)) = faultState 1#4 := by decide

/-! ### Steps -/

/-- R79: a misaligned read returns 0; a write outside the block changes nothing. -/
theorem test_malformed_accesses :
    after (step { doneState with rdata := 9#32, inputs := [.host ⟨false, 0x02, 4, 0#32⟩] }) = doneState ∧
    after (step { doneState with inputs := [.host ⟨true, 0x20, 4, 7#32⟩] }) = doneState := by decide

/-- R190: reset while busy. -/
theorem test_reset_event :
    (after (step { busyAt .bulk abcde 0x1000 5 with seed := 3, inputs := [.reset] })).phase = .idle ∧
    (after (step { busyAt .bulk abcde 0x1000 5 with seed := 3, inputs := [.reset] })).seed = 0#32 ∧
    (after (step { busyAt .bulk abcde 0x1000 5 with seed := 3, inputs := [.reset] })).mem = abcde := by decide

/-- The canonical form: a byte is replaced, removed, and put in its place. -/
theorem test_memory_set :
    Memory.set [(1, 0x41#8), (3, 0x43#8)] 2 (some 0x42#8) = [(1, 0x41#8), (2, 0x42#8), (3, 0x43#8)] ∧
    Memory.set [(1, 0x41#8), (3, 0x43#8)] 1 none = [(3, 0x43#8)] ∧
    Memory.set [(1, 0x41#8), (3, 0x43#8)] 3 (some 0x44#8) = [(1, 0x41#8), (3, 0x44#8)] := by decide

/-! ### Witnesses: what meets the hypotheses of each obligation, clause by clause -/

/-- The bytes of `abcde`. -/
def abcdeBytes : List Byte := [0x41#8, 0x42#8, 0x43#8, 0x44#8, 0x45#8]

/-- `ready` with the START command as the one turn that is listed. -/
def started (m : Memory) (addr len : Word) : State := { ready m addr len with inputs := [.command 1#32] }

/-- Six turns of the sequencer with host turns among them: a read, a START and an operand write while busy, and a change
of memory beside the buffer. -/
def sixTurns (base : Nat) : List Event :=
  [.sequencer, rdLine base .status, .sequencer, startLine, wrLine base .seed 1#32, .sequencer,
    .memory 0x1005#32 (some 0xee#8), .sequencer, .host ⟨false, base + 0x20, 1, 0#32⟩, .sequencer, .sequencer]

theorem witness_CtrlWordSelectsCommand :
    (∃ w : Word, w &&& 0x00000001#32 = 0x00000001#32) ∧ ∃ w : Word, w &&& 0x00000001#32 = 0x00000000#32 :=
  ⟨⟨0xFFFFFFFF#32, by decide⟩, ⟨0xFFFFFFFE#32, by decide⟩⟩

theorem witness_DecodeAndEncodeAgree :
    (∃ i : Instr, i.wellFormed = true) ∧ ∃ (o : OpWord) (i : Instr), decode o = .instr i :=
  ⟨⟨.start 0xFFFFFFFF#32, by decide⟩, .host 0x1C#6 7#32, .rdRsvd, by decide⟩

theorem witness_MalformedAccessReadsZeroWritesNothing :
    (∃ (s : State) (offset bytes : Nat) (w : Word) (rest : List Event),
      s.inputs = .host ⟨true, s.regBase + offset, bytes, w⟩ :: rest ∧ bytes ≠ 4) ∧
    (∃ (s : State) (offset bytes : Nat) (w : Word) (rest : List Event),
      s.inputs = .host ⟨false, s.regBase + offset, bytes, w⟩ :: rest ∧ offset % 4 ≠ 0) ∧
    ∃ (s : State) (offset bytes : Nat) (w : Word) (rest : List Event),
      s.inputs = .host ⟨false, s.regBase + offset, bytes, w⟩ :: rest ∧ 0x1C < offset :=
  ⟨⟨{ doneState with inputs := [.host ⟨true, 0, 2, 7#32⟩] }, 0, 2, 7#32, [], by decide⟩,
    ⟨{ doneState with regBase := 0x40, inputs := [.host ⟨false, 0x5D, 4, 0#32⟩] }, 0x1D, 4, 0#32, [], by decide⟩,
    ⟨{ doneState with regBase := 0x40, inputs := [.host ⟨false, 0x60, 4, 0#32⟩] }, 0x20, 4, 0#32, [], by decide⟩⟩

/-- A step; an access at an offset of the block that has a next state; a BULK that consumes a word and one that stops; an
access just below the block. -/
theorem witness_NoRuleDependsOnRegBase :
    (∃ s t : State, step s = .next t) ∧
    (∃ (s t : State) (we : Bool) (offset bytes : Nat) (w : Word) (rest : List Event),
      s.inputs = .host ⟨we, s.regBase + offset, bytes, w⟩ :: rest ∧ step s = .next t) ∧
    (∃ s t : State, (∀ a, s.inputs.head? ≠ some (.host a)) ∧ step s = .next t ∧ t.k ≠ s.k) ∧
    (∃ (s : State) (r : Fault), (∀ a, s.inputs.head? ≠ some (.host a)) ∧ step s = .fault r) ∧
    ∃ (s : State) (a : Access) (rest : List Event), s.inputs = .host a :: rest ∧ a.addr + 1 = s.regBase :=
  ⟨⟨inPhase .aval, _, rfl⟩,
    ⟨{ doneState with regBase := 0x40, inputs := [.host ⟨true, 0x48, 4, 7#32⟩] }, _, true, 0x08, 4, 7#32, [], rfl, rfl⟩,
    ⟨busyAt .bulk abcde 0x1000 4, _, fun _ => nofun, rfl, by decide⟩,
    ⟨busyAt .bulk topFour 0xfffffffd#32 4, _, fun _ => nofun, rfl⟩,
    ⟨{ doneState with regBase := 0x40, inputs := [.host ⟨false, 0x3F, 4, 0#32⟩] }, _, _, rfl, by decide⟩⟩

theorem witness_IgnoredWritesChangeNothing : ∃ w : Word, w &&& 0x00000001#32 = 0x00000000#32 :=
  ⟨0xFFFFFFFE#32, by decide⟩

theorem witness_CtrlReservedAndCfgReadConstants :
    (∃ s : State, s.byteOrder = .le) ∧ ∃ s : State, s.byteOrder = .be :=
  ⟨⟨doneState, by decide⟩, { doneState with byteOrder := .be }, by decide⟩

/-- Each of the five words has a state that meets the invariant. -/
theorem witness_StatusReadsOneOfFiveWords :
    ∀ s ∈ [inPhase .idle, busyAt .bulk topFour 0xfffffffc#32 4#32, doneState, faultState 1#4, faultState 2#4],
      Inv s := by decide

theorem witness_DigestReadReturnsDigestOnlyInDone :
    (∃ s : State, s.phase = .done) ∧ ∃ s : State, s.phase ≠ .done :=
  ⟨⟨doneState, by decide⟩, inPhase .aval, by decide⟩

/-- A host operation that moves PHASE. -/
theorem witness_HostOperationsCompleteAndOnlyStartMovesPhase :
    ∃ (i : Instr) (s t : State), hostRow i = true ∧ exec i s = .next t ∧ t.phase ≠ s.phase :=
  ⟨.wrCtrl 1#32, ready abcde 0x1000 5, _, by decide, rfl, by decide⟩

theorem witness_HostCannotDisturbABusyRun :
    ∃ (i : Instr) (s t : State), hostRow i = true ∧ s.phase = .aval ∧ exec i s = .next t :=
  ⟨.start 1#32, busyAt .aval [] 0 3, _, by decide, by decide, rfl⟩

/-- Two busy phases, with different working registers. -/
theorem witness_HostCannotTellWorkingStateApart :
    ∃ (i : Instr) (s s' t t' : State), hostRow i = true ∧ HostAgrees s s' ∧ s.phase ≠ s'.phase ∧ s.h ≠ s'.h ∧
      exec i s = .next t ∧ exec i s' = .next t' :=
  ⟨.rdStatus, inPhase .bulk, { inPhase .lmix with h := 1 }, _, _, by decide, by decide, by decide, by decide, rfl,
    rfl⟩

/-- The command and the WR.CTRL that encodes it; the last sum that passes the range test and the first that does not
(F2, F1), in each hold state. -/
theorem witness_AcceptedStartBeginsARunOrTakesIaRange :
    (∃ (w : Word) (i : Instr), w &&& 0x00000001#32 = 0x00000001#32 ∧ decode (.ctrl w) = .instr i) ∧
    (∃ (w : Word) (i : Instr), w &&& 0x00000001#32 = 0x00000001#32 ∧ decode (.host 0x2C#6 w) = .instr i) ∧
    (∃ s : State, s.phase = .idle ∧ s.addr.toNat + s.len.toNat = 2 ^ 32) ∧
    (∃ s : State, s.phase = .done ∧ s.addr.toNat + s.len.toNat = 2 ^ 32 + 1) ∧
    ∃ s : State, s.phase = .fault ∧ s.addr.toNat + s.len.toNat = 2 ^ 32 + 1 :=
  ⟨⟨0xFFFFFFFF#32, .start 0xFFFFFFFF#32, by decide⟩, ⟨1#32, .wrCtrl 1#32, by decide⟩,
    ⟨ready [] 0xfffffffe#32 2#32, by decide⟩, ⟨{ doneState with addr := 0xfffffffe#32, len := 3#32 }, by decide⟩,
    ⟨{ faultState 2#4 with addr := 2#32, len := 0xffffffff#32 }, by decide⟩⟩

theorem witness_CommandsIgnoreTheirWord :
    (∃ s : State, busy s.phase = false ∧ s.addr.toNat + s.len.toNat = 2 ^ 32) ∧ ∃ s : State, busy s.phase = true :=
  ⟨⟨ready [] 0xfffffffe#32 2#32, by decide⟩, inPhase .bulk, by decide⟩

theorem witness_StartWhileBusyIsIgnored :
    ∃ (s : State) (w : Word) (i : Instr), w &&& 0x00000001#32 = 0x00000001#32 ∧ decode (.host 0x2C#6 w) = .instr i ∧
      s.phase = .aval :=
  ⟨inPhase .aval, 1#32, .wrCtrl 1#32, by decide⟩

theorem witness_CtrlWriteIsTheCommandOfItsWord :
    (∃ w : Word, w.getLsbD 0 = true) ∧ ∃ w : Word, w.getLsbD 0 = false :=
  ⟨⟨0xFFFFFFFF#32, by decide⟩, 0xFFFFFFFE#32, by decide⟩

/-- M2: the intermediates of one row of the spec's table. -/
theorem witness_MixIsTheFiveSteps :
    ∃ h k k1 k2 k3 h1 : Word, k1.toNat = k.toNat * 0x5bd1e995 % 2 ^ 32 ∧ k2 = k1 ^^^ (k1 >>> 24) ∧
      k3.toNat = k2.toNat * 0x5bd1e995 % 2 ^ 32 ∧ h1.toNat = h.toNat * 0x5bd1e995 % 2 ^ 32 ∧ k ≠ 0 :=
  ⟨0#32, 1#32, 0x5bd1e995#32, 0x5bd1e9ce#32, 0x9a2792e6#32, 0#32, by decide⟩

/-- X5. -/
theorem witness_FmixIsTheThreeLines :
    ∃ h a b : Word, a = h ^^^ (h >>> 13) ∧ b.toNat = a.toNat * 0x5bd1e995 % 2 ^ 32 ∧ h ≠ 0 :=
  ⟨0x12345678#32, 0x1234c7da#32, 0x4997bbe2#32, by decide⟩

theorem witness_MixAndFmixAreBijections : ∃ n : Nat, 1 ≤ n ∧ n ≤ 31 := ⟨31, by decide⟩

theorem witness_MemoryEventChangesOneAddress :
    ∃ (s : State) (x : Word) (v : Option Byte) (rest : List Event), s.mem.wf ∧ s.inputs = .memory x v :: rest :=
  ⟨{ ready abcde 0 0 with inputs := [.memory 0x1004#32 none] }, _, _, _, by decide, rfl⟩

theorem witness_NoOperationWritesMemory : ∃ (i : Instr) (s t : State), exec i s = .next t ∧ s.mem ≠ [] :=
  ⟨.bulk, busyAt .bulk abcde 0x1000 3, _, rfl, by decide⟩

theorem witness_OnlyBulkAndTailReadMemory :
    ∃ (i : Instr) (s t : State), exec i s = .next t ∧ i ≠ .bulk ∧ i ≠ .tail :=
  ⟨.start 1#32, ready abcde 0x1000 5, _, rfl, by decide, by decide⟩

/-- REM 3 and 4, a word that ends at the top of the space, and a refused one. -/
theorem witness_BulkConsumesAWordOrExits :
    (∃ s : State, s.rem.toNat = 3) ∧
    (∃ (s : State) (b : List Byte), s.rem.toNat = 4 ∧ s.ptr.toNat + 4 = 2 ^ 32 ∧
      readBytes s.mem s.ptr.toNat 4 = some b) ∧
    ∃ s : State, 4 ≤ s.rem.toNat ∧ s.ptr.toNat + 4 ≤ 2 ^ 32 ∧ readBytes s.mem s.ptr.toNat 4 = none :=
  ⟨⟨busyAt .bulk abcde 0x1000 3, by decide⟩,
    ⟨busyAt .bulk topFour 0xfffffffc#32 4, [0x41#8, 0x42#8, 0x43#8, 0x44#8], by decide⟩,
    ⟨busyAt .bulk abcde 0x1002 4, by decide⟩⟩

theorem witness_BulkBeyondTheBufferSpaceStops : ∃ s : State, 4 ≤ s.rem.toNat ∧ 2 ^ 32 < s.ptr.toNat + 4 :=
  ⟨busyAt .bulk topFour 0xfffffffd#32 4, by decide⟩

/-- No byte, and three that end at the top of the space. -/
theorem witness_TailPacksTheRemainingBytes :
    (∃ (s : State) (y : List Byte), s.rem.toNat = y.length ∧ y.length = 0 ∧ s.ptr.toNat + y.length ≤ 2 ^ 32 ∧
      BufferAt s.mem s.ptr.toNat y) ∧
    ∃ (s : State) (y : List Byte), s.rem.toNat = y.length ∧ y.length = 3 ∧ s.ptr.toNat + y.length = 2 ^ 32 ∧
      BufferAt s.mem s.ptr.toNat y :=
  ⟨⟨busyAt .tail [] 0 0, [], by decide⟩,
    ⟨busyAt .tail topFour 0xfffffffd#32 3, [0x42#8, 0x43#8, 0x44#8], by decide⟩⟩

/-- The refusal at the first request (offset 2) and at the last (offset 0). -/
theorem witness_TailFaultsAtTheFirstRefusedRead :
    (∃ s : State, s.rem.toNat = 3 ∧ s.ptr.toNat + s.rem.toNat ≤ 2 ^ 32 ∧ s.mem.read (s.ptr.toNat + 2) = none) ∧
    ∃ s : State, s.rem.toNat = 3 ∧ s.ptr.toNat + s.rem.toNat = 2 ^ 32 ∧ s.mem.read (s.ptr.toNat + 0) = none ∧
      ∀ i, i < s.rem.toNat → 0 < i → s.mem.read (s.ptr.toNat + i) ≠ none :=
  ⟨⟨busyAt .tail abcde 0x1003 3, by decide⟩,
    ⟨busyAt .tail [(0xfffffffe, 0x43#8), (0xffffffff, 0x44#8)] 0xfffffffd#32 3, by decide⟩⟩

theorem witness_TailIgnoresTheByteOrder : ∃ s t : State, exec .tail s = .next t ∧ s.rem.toNat = 0 :=
  ⟨busyAt .tail [] 0 0, _, rfl, by decide⟩

theorem witness_AvalDeliversTheDigest :
    ∃ (i : Instr) (s t : State), exec i s = .next t ∧ i ≠ .aval ∧ s.digest ≠ 0 :=
  ⟨.start 1#32, doneState, _, rfl, by decide, by decide⟩

theorem witness_SequencerNeverWritesOperands :
    ∃ (i : Instr) (s t : State), hostRow i = false ∧ exec i s = .next t ∧ s.seed ≠ 0 :=
  ⟨.tmix, { inPhase .tmix with seed := 7 }, _, by decide, rfl, by decide⟩

/-- Both causes, and a START that is refused in FAULT. -/
theorem witness_FaultEntryWritesOnlyPhaseAndEcode :
    (∃ (i : Instr) (s t : State), exec i s = .next t ∧ s.phase = .fault ∧ givesStart i = true ∧ t.phase = .fault) ∧
    (∃ (i : Instr) (s t : State), exec i s = .next t ∧ s.phase ≠ .fault ∧ t.phase = .fault ∧ t.ecode = 1#4) ∧
    ∃ (i : Instr) (s t : State), exec i s = .next t ∧ s.phase ≠ .fault ∧ t.phase = .fault ∧ t.ecode = 2#4 :=
  ⟨⟨.wrCtrl 1#32, { faultState 2#4 with addr := 2#32, len := 0xffffffff#32 }, _, rfl, by decide, by decide, by decide⟩,
    ⟨.start 1#32, ready [] 0xfffffffe#32 3#32, _, rfl, by decide, by decide, by decide⟩,
    ⟨.bulk, busyAt .bulk abcde 0x1002 4, _, rfl, by decide, by decide, by decide⟩⟩

theorem witness_StepPerformsTheDecodedOperation :
    (∃ (s : State) (a : Access) (rest : List Event) (i : Instr),
      s.inputs = .host a :: rest ∧ decodeAccess s.regBase a = .instr i) ∧
    (∃ (s : State) (w : Word) (rest : List Event) (i : Instr),
      s.inputs = .command w :: rest ∧ decode (.ctrl w) = .instr i) ∧
    (∃ (s : State) (rest : List Event) (i : Instr),
      s.inputs = .sequencer :: rest ∧ decode (.phase (phaseCode s.phase)) = .instr i) ∧
    (∃ (s : State) (i : Instr), s.inputs = [] ∧ decode (.phase (phaseCode s.phase)) = .instr i) ∧
    ∃ (nbits w : Nat) (i : Instr), decodeTableWord nbits w = some i :=
  ⟨⟨{ doneState with regBase := 0x40, inputs := [wrLine 0x40 .seed 7#32] }, _, _, .wrSeed 7#32, rfl, by decide⟩,
    ⟨{ doneState with inputs := [startLine] }, _, _, .start 1#32, rfl, by decide⟩,
    ⟨{ inPhase .bulk with inputs := [.sequencer] }, _, .bulk, rfl, by decide⟩,
    ⟨inPhase .aval, .aval, by decide⟩, 8, 0x3C, .wrRsvd 0#32, by decide⟩

/-- Every row of the table has a state that meets the invariant, REM 3 and 4 and the refused reads among them. -/
theorem witness_SequencerMovesPhaseAsTabled :
    (∀ s ∈ [inPhase .idle, doneState, faultState 2#4, busyAt .bulk abcde 0x1000 3, busyAt .bulk abcde 0x1000 4,
        busyAt .bulk abcde 0x1002 4, busyAt .tail abcde 0x1002 3, busyAt .tail abcde 0x1003 3,
        busyAt .tmix [] 0 3, busyAt .lmix [] 0 3, busyAt .aval [] 0 3], Inv s ∧ sequencersTurn s = true) ∧
    (readBytes abcde 0x1000 4).isSome = true ∧ (readBytes abcde 0x1002 4).isSome = false ∧
    (readBytes abcde 0x1002 3).isSome = true ∧ (readBytes abcde 0x1003 3).isSome = false := by decide

/-- A host access that is no START, an event of the memory and the sequencer's turn. -/
theorem witness_HoldStatesAreLeftOnlyByStartOrReset :
    (∃ s : State, s.phase = .idle ∧ s.inputs = [.sequencer] ∧ startGiven s = false ∧ resetGiven s = false) ∧
    (∃ s : State, s.phase = .done ∧ s.inputs = [wrLine 0 .ctrl 0xFFFFFFFE#32] ∧ startGiven s = false ∧
      resetGiven s = false) ∧
    ∃ s : State, s.phase = .fault ∧ s.inputs = [.memory 7#32 none] ∧ startGiven s = false ∧ resetGiven s = false :=
  ⟨⟨{ inPhase .idle with inputs := [.sequencer] }, by decide⟩,
    ⟨{ doneState with inputs := [wrLine 0 .ctrl 0xFFFFFFFE#32] }, by decide⟩,
    ⟨{ faultState 2#4 with inputs := [.memory 7#32 none] }, by decide⟩⟩

theorem witness_ByteOrderIsNeverSwitched : ∃ s t : State, s.byteOrder = .be ∧ step s = .next t :=
  ⟨{ doneState with byteOrder := .be, inputs := [.reset] }, _, by decide, rfl⟩

theorem witness_ResetEventRestoresTheResetState :
    ∃ (s : State) (rest : List Event), s.phase = .bulk ∧ s.inputs = .reset :: rest :=
  ⟨{ busyAt .bulk abcde 0x1000 5 with inputs := [.reset] }, [], by decide⟩

/-- Also in the state where PTR has wrapped to 0 (R30, T13). -/
theorem witness_EveryStepKeepsTheInvariant :
    ∃ s t : State, Inv s ∧ s.phase = .bulk ∧ step s = .next t ∧ t.ptr = 0 ∧ t.rem = 0 :=
  ⟨busyAt .bulk topFour 0xfffffffc#32 4, _, by decide, by decide, rfl, by decide, by decide⟩

theorem witness_InvariantStatesNeverStop : ∃ s : State, Inv s ∧ s.phase = .bulk ∧ 4 ≤ s.rem.toNat :=
  ⟨busyAt .bulk topFour 0xfffffffc#32 4, by decide⟩

/-- The first and the last value of the count. -/
theorem witness_BulkLoopInvariant :
    ∃ (s : State) (b : List Byte) (w : Word), s.phase = .idle ∧ s.inputs = [.command w] ∧ w.getLsbD 0 = true ∧
      s.len.toNat = b.length ∧ s.addr.toNat + b.length ≤ 2 ^ 32 ∧ BufferAt s.mem s.addr.toNat b ∧
      0 ≤ b.length / 4 ∧ 1 ≤ b.length / 4 :=
  ⟨started abcde 0x1000 5, abcdeBytes, 1#32, by decide⟩

/-- The empty buffer at the last address (F5), the five bytes of P2, and a buffer that ends at the top of the space
(T13). -/
theorem witness_ARunComputesHash :
    (∃ (s : State) (b : List Byte) (w : Word), s.phase = .fault ∧ s.inputs = [.command w] ∧ w.getLsbD 0 = true ∧
      s.len.toNat = b.length ∧ b.length = 0 ∧ s.addr.toNat + b.length ≤ 2 ^ 32 ∧ BufferAt s.mem s.addr.toNat b) ∧
    (∃ (s : State) (b : List Byte) (w : Word), s.phase = .idle ∧ s.inputs = [.command w] ∧ w.getLsbD 0 = true ∧
      s.len.toNat = b.length ∧ s.addr.toNat + b.length ≤ 2 ^ 32 ∧ BufferAt s.mem s.addr.toNat b) ∧
    ∃ (s : State) (b : List Byte) (w : Word), s.phase = .done ∧ s.inputs = [.command w] ∧ w.getLsbD 0 = true ∧
      s.len.toNat = b.length ∧ s.addr.toNat + b.length = 2 ^ 32 ∧ BufferAt s.mem s.addr.toNat b :=
  ⟨⟨{ faultState 2#4 with addr := 0xffffffff#32, inputs := [.command 1#32] }, [], 1#32, by decide⟩,
    ⟨started abcde 0x1000 5, abcdeBytes, 1#32, by decide⟩,
    ⟨{ doneState with mem := topFour, addr := 0xfffffffc#32, len := 4, inputs := [.command 0xFFFFFFFF#32] },
      [0x41#8, 0x42#8, 0x43#8, 0x44#8], 0xFFFFFFFF#32, by decide⟩⟩

theorem witness_AnInterleavedRunComputesHash :
    ∃ (s : State) (b : List Byte) (w : Word) (es rest : List Event), s.phase = .idle ∧
      s.inputs = .command w :: (es ++ rest) ∧ w.getLsbD 0 = true ∧ s.len.toNat = b.length ∧
      s.addr.toNat + b.length ≤ 2 ^ 32 ∧ BufferAt s.mem s.addr.toNat b ∧ RunTurns s.addr.toNat b.length es :=
  ⟨{ ready abcde 0x1000 5 with inputs := startLine :: (sixTurns 0 ++ [rdLine 0 .digest]) }, abcdeBytes, 1#32, sixTurns 0,
    [rdLine 0 .digest], by decide⟩

theorem witness_TheHashCallReturnsHash :
    ∃ (s : State) (b : List Byte) (a n seed : Word) (es : List Event), s.phase = .done ∧ n.toNat = b.length ∧
      a.toNat + b.length ≤ 2 ^ 32 ∧ BufferAt s.mem a.toNat b ∧ RunTurns a.toNat b.length es ∧
      s.inputs = hashCall s.regBase a n seed ++ (es ++ [rdLine s.regBase .status, rdLine s.regBase .digest]) :=
  ⟨{ doneState with
      mem := abcde, regBase := 0x40
      inputs := hashCall 0x40 0x1000#32 5#32 1#32 ++ (sixTurns 0x40 ++ [rdLine 0x40 .status, rdLine 0x40 .digest]) },
    abcdeBytes, 0x1000#32, 5#32, 1#32, sixTurns 0x40, by decide⟩

/-- The refusal in the bulk loop (F7, F11) and in TAIL (F8). -/
theorem witness_ARunEndsAtTheFirstRefusedRead :
    (∃ (s : State) (w : Word), s.phase = .idle ∧ s.inputs = [.command w] ∧ w.getLsbD 0 = true ∧
      s.addr.toNat + s.len.toNat ≤ 2 ^ 32 ∧ 5 < s.len.toNat ∧ s.mem.read (s.addr.toNat + 5) = none) ∧
    ∃ (s : State) (w : Word), s.phase = .idle ∧ s.inputs = [.command w] ∧ w.getLsbD 0 = true ∧
      s.addr.toNat + s.len.toNat ≤ 2 ^ 32 ∧ 6 < s.len.toNat ∧ s.mem.read (s.addr.toNat + 6) = none :=
  ⟨⟨started abcde 0x1000 8, 1#32, by decide⟩, started abcde 0x1000 7, 1#32, by decide⟩

theorem witness_EveryRunEndsWithinItsBound :
    ∃ s : State, Inv s ∧ busy s.phase = true ∧ s.inputs = [] ∧ 4 ≤ s.rem.toNat :=
  ⟨busyAt .bulk abcde 0x1000 5, by decide⟩

/-- S4: `[41]` and `[41, 00]`. -/
theorem witness_LengthAloneChangesTheDigest :
    ∃ b b' : List Byte, b.length < 2 ^ 32 ∧ b'.length < 2 ^ 32 ∧ b.length ≠ b'.length ∧
      b.length / 4 = b'.length / 4 ∧ b.take (4 * (b.length / 4)) = b'.take (4 * (b.length / 4)) ∧
      hashTail b = hashTail b' :=
  ⟨[0x41#8], [0x41#8, 0x00#8], by decide⟩

/-- Only the last bulk word differs; only the tail differs. -/
theorem witness_OneChangedWordChangesTheDigest :
    (∃ b b' : List Byte, b.length = b'.length ∧ 0 < b.length / 4 ∧ bulkBytes b 0 ≠ bulkBytes b' 0 ∧
      (∀ i, i ≠ 0 → bulkBytes b i = bulkBytes b' i) ∧ tailBytes b = tailBytes b') ∧
    ∃ b b' : List Byte, b.length = b'.length ∧ (∀ i, i < b.length / 4 → bulkBytes b i = bulkBytes b' i) ∧
      tailBytes b ≠ tailBytes b' :=
  ⟨⟨[1#8, 2#8, 3#8, 4#8], [1#8, 2#8, 3#8, 5#8], by decide, by decide, by decide, fun i h => by
      have h4 : 4 ≤ 4 * i := by omega
      simp only [bulkBytes]
      rw [List.drop_eq_nil_of_le h4, List.drop_eq_nil_of_le h4], by decide⟩,
    ⟨[1#8, 2#8, 3#8, 4#8, 5#8], [1#8, 2#8, 3#8, 4#8, 6#8], by decide, by decide, by decide⟩⟩

theorem witness_ByteOrdersAreRelated : ∃ b : List Byte, b.length < 4 := ⟨[1#8, 2#8, 3#8], by decide⟩

end Sys2Proof.Tests
end

section
/-! The operation a turn decodes to (O41): each encoded word and the turn that carries it name one operation. -/

namespace Sys2Proof

/-- A header that carries `offset[1:0]` ≠ 0 is not listed in the table of R72. -/
theorem decodeHost_misaligned {header : BitVec 6} (w : Word) (h : header.toNat % 4 ≠ 0) :
    decodeHost header w = .rejected .misalignedOffset := by
  unfold decodeHost
  split
  case h_17 => rfl
  all_goals omega

/-- A header is rebuilt from its direction bit and its offset (R71). -/
theorem headerOf_fields : ∀ header : BitVec 6, headerOf (header.getLsbD 5) (header.toNat % 32) = header := by
  decide

/-- Every code is the code of the phase it stands for (R76). -/
@[simp] theorem phaseOfCode_phaseCode (p : Phase) : phaseOfCode (phaseCode p) = p := by
  cases p <;> rfl

theorem decode_phaseCode (p : Phase) : decode (.phase (phaseCode p)) = .instr (decodePhase p) := by
  simp [decode]

/-- A numbered word has an operation only through an encoded word that decodes to it. -/
theorem exists_opWord_of_decodeTableWord {nbits w : Nat} {i : Instr} (h : decodeTableWord nbits w = some i) :
    ∃ o, tableOpWord nbits w = some o ∧ decode o = .instr i := by
  unfold decodeTableWord at h
  split at h
  · cases h
  · next o ho =>
    split at h
    · next j hj => cases h; exact ⟨o, ho, hj⟩
    · cases h

end Sys2Proof

namespace Sys2Proof.Machine

/-- The access a HOST word describes decodes as the word itself, wherever the block is mapped (R71, R81). -/
theorem decodeAccess_accessOf (base : Nat) (header : BitVec 6) (w : Word) :
    decodeAccess base (accessOf base header w) = decode (.host header w) := by
  rw [accessOf, decodeAccess_offset, decodeOffset, decode]
  by_cases hm : header.toNat % 4 = 0
  · have hoff : ¬ 0x1C < header.toNat % 32 := by omega
    have hal : header.toNat % 32 % 4 = 0 := by omega
    simp only [hal, hoff, headerOf_fields, ne_eq, not_true_eq_false, if_false]
  · have hal : header.toNat % 32 % 4 ≠ 0 := by omega
    rw [decodeHost_misaligned w hm, if_neg (not_not_intro rfl), if_pos hal]

/-- A placed operation is what the next step performs, for a PHASE code with PHASE at that code (log 12). -/
theorem step_placeOperation {o : OpWord} {i : Instr} (s : State) (h : decode o = .instr i) :
    step (placeOperation o s) = exec i s ∨
      ∃ p : Phase, decodePhase p = i ∧ step (placeOperation o s) = exec i { s with phase := p } := by
  cases o with
  | host header w => exact .inl (step_host rfl ((decodeAccess_accessOf s.regBase header w).trans h))
  | ctrl w =>
    cases h
    exact .inl (step_command rfl)
  | phase code =>
    cases h
    exact .inr ⟨phaseOfCode code, rfl, step_sequencer rfl⟩

/-- Settles O41: one lemma of Laws/Step for each kind of turn, and `step_placeOperation` for a numbered word. -/
theorem stepPerformsTheDecodedOperation : Obligations.StepPerformsTheDecodedOperation := by
  unfold Obligations.StepPerformsTheDecodedOperation
  refine ⟨fun s a rest i hin hd => step_host hin hd, ?_, ?_, ?_, ?_⟩
  · intro s w rest i hin hd
    cases hd
    exact step_command hin
  · intro s rest i hin hd
    rw [decode_phaseCode] at hd
    cases hd
    exact step_sequencer hin
  · intro s i hin hd
    rw [decode_phaseCode] at hd
    cases hd
    exact step_nil hin
  · intro s nbits w i hd
    obtain ⟨o, ho, hdo⟩ := exists_opWord_of_decodeTableWord hd
    simp only [State.withFetchWord, ho]
    exact step_placeOperation s hdo

end Sys2Proof.Machine
end

section
/-! REG_BASE has no effect (O60): moving the register block commutes with every operation and every turn. That a step
keeps REG_BASE is the special case of a move to where the block lies already. -/

namespace Sys2Proof.Machine

/-! ### Moving the block -/

/-- The same state with the register block mapped at `base`. -/
def State.withBase (base : Nat) (s : State) : State := { s with regBase := base }

/-- The same outcome with the register block mapped at `base`; a stop says nothing of the block. -/
def Result.withBase (base : Nat) : Result → Result
  | .next s => .next (s.withBase base)
  | .fault r => .fault r
  | .refused r => .refused r

/-- The same point between TAIL's reads with the register block mapped at `base`. -/
def TailStep.withBase (base : Nat) : TailStep → TailStep
  | .packed t s => .packed t (s.withBase base)
  | .refused s => .refused (s.withBase base)

@[simp] theorem State.withBase_regBase (base : Nat) (s : State) : (s.withBase base).regBase = base := rfl
@[simp] theorem State.withBase_mem (base : Nat) (s : State) : (s.withBase base).mem = s.mem := rfl
@[simp] theorem State.withBase_ptr (base : Nat) (s : State) : (s.withBase base).ptr = s.ptr := rfl
@[simp] theorem State.withBase_rem (base : Nat) (s : State) : (s.withBase base).rem = s.rem := rfl

@[simp] theorem State.withBase_self (s : State) : s.withBase s.regBase = s := rfl

@[simp] theorem Result.withBase_next (base : Nat) (s : State) :
    Result.withBase base (.next s) = .next (s.withBase base) := rfl

@[simp] theorem Result.withBase_fault (base : Nat) (r : Fault) :
    Result.withBase base (.fault r) = .fault r := rfl

/-! ### The operations -/

theorem startCommand_withBase (base : Nat) (s : State) :
    startCommand (s.withBase base) = (startCommand s).withBase base := by
  unfold startCommand
  rw [apply_ite (State.withBase base), apply_ite (State.withBase base)]
  rfl

theorem logRead_withBase (base : Nat) (r : BusRead) (s : State) :
    (s.withBase base).logRead r = (s.logRead r).withBase base := rfl

theorem enterFault_withBase (base : Nat) (c : Cause) (s : State) :
    enterFault c (s.withBase base) = (enterFault c s).withBase base := rfl

theorem consumeWord_withBase (base : Nat) (b : List Byte) (s : State) :
    consumeWord b (s.withBase base) = (consumeWord b s).withBase base := rfl

theorem bulkConsume_withBase (base : Nat) (s : State) :
    bulkConsume (s.withBase base) = Result.withBase base (bulkConsume s) := by
  unfold bulkConsume
  by_cases hs : spaceSize < s.ptr.toNat + 4
  · simp [hs]
  · cases hr : readBytes s.mem s.ptr.toNat 4 <;>
      simp [hs, busRead, hr, logRead_withBase, enterFault_withBase, consumeWord_withBase]

theorem execBulk_withBase (base : Nat) (s : State) :
    execBulk (s.withBase base) = Result.withBase base (execBulk s) := by
  unfold execBulk
  rw [apply_ite (Result.withBase base), bulkConsume_withBase]
  rfl

theorem tailByte_withBase (base offset : Nat) (x : TailStep) :
    tailByte offset (x.withBase base) = (tailByte offset x).withBase base := by
  cases x with
  | refused s => rfl
  | packed t s =>
    by_cases hr : offset < s.rem.toNat
    · cases hb : readBytes s.mem (s.ptr + BitVec.ofNat 32 offset).toNat 1 <;>
        simp only [TailStep.withBase, tailByte, State.withBase_rem, State.withBase_ptr, State.withBase_mem, hr,
          if_true, busRead, hb, logRead_withBase]
    · simp [TailStep.withBase, tailByte, hr]

theorem tailReads_withBase (base : Nat) (s : State) :
    tailReads (s.withBase base) = (tailReads s).withBase base := by
  simp only [tailReads, ← tailByte_withBase]
  rfl

theorem execTail_withBase (base : Nat) (s : State) :
    execTail (s.withBase base) = Result.withBase base (execTail s) := by
  unfold execTail
  rw [tailReads_withBase]
  cases tailReads s <;> rfl

theorem execRdDigest_withBase (base : Nat) (s : State) :
    execRdDigest (s.withBase base) = Result.withBase base (execRdDigest s) := by
  unfold execRdDigest
  rw [Result.withBase_next, apply_ite (State.withBase base)]
  rfl

theorem execWrCtrl_withBase (base : Nat) (w : Word) (s : State) :
    execWrCtrl w (s.withBase base) = Result.withBase base (execWrCtrl w s) := by
  unfold execWrCtrl
  rw [Result.withBase_next, apply_ite (State.withBase base), startCommand_withBase]

/-- No operation looks at REG_BASE or writes it (U16). -/
theorem exec_withBase (base : Nat) (i : Instr) (s : State) :
    exec i (s.withBase base) = Result.withBase base (exec i s) := by
  cases i with
  | wrCtrl w => exact execWrCtrl_withBase base w s
  | rdDigest => exact execRdDigest_withBase base s
  | start w => exact congrArg Host.Outcome.next (startCommand_withBase base s)
  | bulk => exact execBulk_withBase base s
  | tail => exact execTail_withBase base s
  | _ => rfl

theorem unmatchedAccess_withBase (base : Nat) {a a' : Access} (h : a'.we = a.we) (s : State) :
    unmatchedAccess a' (s.withBase base) = (unmatchedAccess a s).withBase base := by
  rw [unmatchedAccess, unmatchedAccess, h, apply_ite (State.withBase base)]
  rfl

/-! ### The turns -/

/-- A host access at one offset of the block has one effect, wherever the block lies (R58). -/
theorem step_access_withBase {s : State} {we : Bool} {offset bytes : Nat} {w : Word} {rest : List Event} (base : Nat)
    (h : s.inputs = .host ⟨we, s.regBase + offset, bytes, w⟩ :: rest) :
    step { s with regBase := base, inputs := .host ⟨we, base + offset, bytes, w⟩ :: rest } =
      Result.withBase base (step s) := by
  cases hd : decodeOffset we offset bytes w with
  | instr i =>
    rw [step_host h ((decodeAccess_offset ..).trans hd), step_host rfl ((decodeAccess_offset ..).trans hd)]
    exact exec_withBase base i (s.take rest)
  | rejected e =>
    rw [step_unmatched h ((decodeAccess_offset ..).trans hd), step_unmatched rfl ((decodeAccess_offset ..).trans hd)]
    exact congrArg Host.Outcome.next (unmatchedAccess_withBase base rfl (s.take rest))

/-- A turn that is no host access has one effect, wherever the block lies. -/
theorem step_withBase {s : State} (base : Nat) (h : ∀ a, s.inputs.head? ≠ some (.host a)) :
    step (s.withBase base) = Result.withBase base (step s) := by
  cases hin : s.inputs with
  | nil =>
    rw [step_nil hin, step_nil (s := s.withBase base) hin]
    exact exec_withBase base _ s
  | cons e rest =>
    cases e with
    | sequencer =>
      rw [step_sequencer hin, step_sequencer (s := s.withBase base) hin]
      exact exec_withBase base _ (s.take rest)
    | host a => exact absurd (by rw [hin]; rfl) (h a)
    | command w =>
      rw [step_command hin, step_command (s := s.withBase base) hin]
      exact exec_withBase base _ (s.take rest)
    | reset =>
      rw [step_reset hin, step_reset (s := s.withBase base) hin]
      rfl
    | memory x v =>
      rw [step_memory hin, step_memory (s := s.withBase base) hin]
      rfl

/-- An operation keeps REG_BASE: moving the block to where it lies already changes no outcome. -/
theorem exec_regBase {i : Instr} {s t : State} (h : exec i s = .next t) : t.regBase = s.regBase := by
  have hself := exec_withBase s.regBase i s
  rw [State.withBase_self, h, Result.withBase_next, Host.Outcome.next.injEq] at hself
  rw [hself, State.withBase_regBase]

theorem unmatchedAccess_regBase (a : Access) (s : State) : (unmatchedAccess a s).regBase = s.regBase := by
  unfold unmatchedAccess
  split <;> rfl

/-- No step moves the block. -/
theorem step_regBase {s t : State} (h : step s = .next t) : t.regBase = s.regBase := by
  rcases step_cases s with ⟨s', -, hs', he⟩ | ⟨e, rest, i, -, -, -, he⟩ | ⟨a, rest, -, he⟩ | ⟨rest, -, he⟩ |
    ⟨x, v, rest, -, he⟩ <;> rw [he] at h
  · rw [exec_regBase h]
    obtain rfl | ⟨rest, -, rfl⟩ := hs' <;> rfl
  · rw [exec_regBase h, State.take_regBase]
  · cases h
    exact unmatchedAccess_regBase a _
  · cases h
    rfl
  · cases h
    rfl

/-- An access below the block reads as 0 and writes nothing (log 17). -/
theorem step_belowBlock {s : State} {a : Access} {rest : List Event} (h : s.inputs = .host a :: rest)
    (hlt : a.addr < s.regBase) :
    step s = .next { s with inputs := rest, rdata := if a.we then s.rdata else 0x00000000#32 } := by
  have hd : decodeAccess s.regBase a = .rejected .belowBlock := by rw [decodeAccess, if_pos hlt]
  rw [step_unmatched h hd, unmatchedAccess]
  cases a.we <;> rfl

/-- Settles O60: moving the block commutes with every turn, and so keeps REG_BASE. -/
theorem noRuleDependsOnRegBase : Obligations.NoRuleDependsOnRegBase := by
  unfold Obligations.NoRuleDependsOnRegBase
  refine ⟨fun s t => step_regBase, ?_, ?_, fun s a rest => step_belowBlock⟩
  · intro s t we offset bytes w rest base hin hs
    rw [step_access_withBase base hin, hs]
    rfl
  · intro s base hno
    have hmove := step_withBase base hno
    constructor
    · intro t hs
      rw [hs] at hmove
      exact hmove
    · intro r hs
      rw [hs] at hmove
      exact hmove

end Sys2Proof.Machine
end

section
/-! The invariant (O47, O48, O49): what it says in each phase, that every operation and every turn keeps it, and that it
excludes the model's one stop. -/

namespace Sys2Proof.Machine

/-! ### The invariant, phase by phase -/

theorem inv_idle_iff {s : State} (hp : s.phase = .idle) : Inv s ↔ s.mem.wf ∧ s.ecode = 0#4 := by
  simp [CauseRecorded, hp]

theorem inv_bulk_iff {s : State} (hp : s.phase = .bulk) :
    Inv s ↔ s.mem.wf ∧ s.ecode = 0#4 ∧ (0 < s.rem.toNat → s.ptr.toNat + s.rem.toNat ≤ 4294967296) ∧
      s.rem.toNat ≤ s.l.toNat ∧ s.rem.toNat % 4 = s.l.toNat % 4 := by
  simp [CauseRecorded, hp]

theorem inv_tail_iff {s : State} (hp : s.phase = .tail) :
    Inv s ↔ s.mem.wf ∧ s.ecode = 0#4 ∧ (0 < s.rem.toNat → s.ptr.toNat + s.rem.toNat ≤ 4294967296) ∧
      (s.rem.toNat ≤ s.l.toNat ∧ s.rem.toNat % 4 = s.l.toNat % 4) ∧ s.rem.toNat < 4 := by
  simp [CauseRecorded, hp]

theorem inv_tmix_iff {s : State} (hp : s.phase = .tmix) :
    Inv s ↔ s.mem.wf ∧ s.ecode = 0#4 ∧ (s.rem.toNat ≤ s.l.toNat ∧ s.rem.toNat % 4 = s.l.toNat % 4) ∧
      s.rem.toNat < 4 ∧ s.t.toNat < 16777216 := by
  simp [CauseRecorded, hp]

theorem inv_lmix_iff {s : State} (hp : s.phase = .lmix) :
    Inv s ↔ s.mem.wf ∧ s.ecode = 0#4 ∧ (s.rem.toNat ≤ s.l.toNat ∧ s.rem.toNat % 4 = s.l.toNat % 4) ∧
      s.rem.toNat < 4 := by
  simp [CauseRecorded, hp]

theorem inv_aval_iff {s : State} (hp : s.phase = .aval) : Inv s ↔ s.mem.wf ∧ s.ecode = 0#4 ∧ s.rem.toNat < 4 := by
  simp [CauseRecorded, hp]

theorem inv_done_iff {s : State} (hp : s.phase = .done) :
    Inv s ↔ s.mem.wf ∧ s.ecode = 0#4 ∧ s.rem.toNat < 4 ∧ s.digest = s.h := by
  simp [CauseRecorded, hp]

theorem inv_fault_iff {s : State} (hp : s.phase = .fault) : Inv s ↔ s.mem.wf ∧ (s.ecode = 1#4 ∨ s.ecode = 2#4) := by
  simp [CauseRecorded, hp]

/-! ### The shared operations keep it -/

theorem inv_enterFault (c : Cause) {s : State} (hm : s.mem.wf) : Inv (enterFault c s) := by
  rw [inv_fault_iff rfl]
  refine ⟨hm, ?_⟩
  cases c
  · exact .inl rfl
  · exact .inr rfl

/-- A run begins with the whole buffer to be read, inside the buffer space by the range test (R171). -/
theorem inv_beginRun {s : State} (hm : s.mem.wf) (hr : rangeOk s.addr s.len = true) : Inv (beginRun s) := by
  rw [inv_bulk_iff rfl]
  exact ⟨hm, rfl, fun _ => rangeOk_eq_true.1 hr, le_refl _, rfl⟩

theorem inv_startCommand {s : State} (hi : Inv s) : Inv (startCommand s) := by
  rcases startCommand_cases s with ⟨-, h⟩ | ⟨-, hr, h⟩ | ⟨-, -, h⟩ <;> rw [h]
  · exact hi
  · exact inv_beginRun hi.1 hr
  · exact inv_enterFault .iaRange hi.1

theorem inv_platformReset {s : State} (hm : s.mem.wf) : Inv (platformReset s) :=
  (inv_idle_iff rfl).2 ⟨hm, rfl⟩

theorem inv_changeMemory (a : Word) (v : Option Byte) {s : State} (hi : Inv s) : Inv (changeMemory a v s) := by
  obtain ⟨hm, hrest⟩ := hi
  exact ⟨Memory.set_wf hm a.isLt v, hrest⟩

theorem inv_unmatchedAccess (a : Access) {s : State} (hi : Inv s) : Inv (unmatchedAccess a s) := by
  unfold unmatchedAccess
  split <;> exact hi

/-- The invariant says nothing of the operand registers, the word returned or the count of free words. -/
theorem inv_exec_host {i : Instr} {s t : State} (hrow : hostRow i = true) (hi : Inv s) (h : exec i s = .next t) :
    Inv t := by
  rcases exec_host s hrow with he | ⟨w, he⟩ | ⟨w, he⟩ | ⟨w, he⟩ | ⟨w, he⟩ | ⟨-, -, he⟩ | ⟨-, he⟩ <;>
    rw [he] at h <;> cases h
  any_goals exact hi
  exact inv_startCommand hi

/-! ### The sequencer's operations keep it -/

/-- A lane below bit 24 keeps the bits 31:24 of the tail word clear (R110). -/
theorem tailLane_lt {t : Word} {offset : Nat} (b : List Byte) (ho : offset ≤ 2) (ht : t.toNat < 16777216) :
    (tailLane t offset (byteAt b 0)).toNat < 16777216 := by
  have hbyte : (byteAt b 0).toNat < 2 ^ 8 := by
    rw [byteAt, BitVec.toNat_setWidth]
    exact lt_of_le_of_lt (Nat.mod_le _ _) (b.getD 0 0).isLt
  have hlane : (byteAt b 0 <<< (8 * offset)).toNat < 2 ^ 24 := by
    rw [BitVec.toNat_shiftLeft, Nat.shiftLeft_eq]
    calc (byteAt b 0).toNat * 2 ^ (8 * offset) % 2 ^ 32
        ≤ (byteAt b 0).toNat * 2 ^ (8 * offset) := Nat.mod_le _ _
      _ ≤ (byteAt b 0).toNat * 2 ^ 16 := Nat.mul_le_mul_left _ (Nat.pow_le_pow_right (by decide) (by omega))
      _ < 2 ^ 24 := by omega
  rw [tailLane, BitVec.toNat_xor]
  exact Nat.xor_lt_two_pow (n := 24) ht hlane

/-- The tail word packed so far, if no read was refused, has its bits 31:24 clear. -/
def TailStep.Short : TailStep → Prop
  | .packed t _ => t.toNat < 16777216
  | .refused _ => True

theorem tailByte_short {offset : Nat} (ho : offset ≤ 2) {x : TailStep} (hx : x.Short) :
    (tailByte offset x).Short := by
  cases x with
  | refused s => trivial
  | packed t s =>
    rcases (tailByte_cases offset (.packed t s)).2 t s rfl with ⟨-, h⟩ | ⟨-, ⟨b, -, h⟩ | ⟨-, h⟩⟩ <;> rw [h]
    · exact hx
    · exact tailLane_lt b ho hx
    · trivial

theorem tailReads_short (s : State) : (tailReads s).Short :=
  tailByte_short (by decide) (tailByte_short (by decide) (tailByte_short (by decide) (show 0 < 16777216 by decide)))

/-- TAIL leaves a packed T with its bits 31:24 clear, or enters FAULT (R110, R111). -/
theorem execTail_tailWordIsShort {s t : State} (h : execTail s = .next t) : TailWordIsShort t := by
  have hshort := tailReads_short s
  unfold execTail at h
  cases hr : tailReads s with
  | packed w s' =>
    rw [hr] at h hshort
    cases h
    exact fun _ => hshort
  | refused s' =>
    rw [hr] at h
    cases h
    intro hp
    cases hp

/-- A consuming BULK step moves PTR up and REM down by four, neither sum wrapping (R29, R30). -/
theorem inv_consumeWord (b : List Byte) {s : State} (hp : s.phase = .bulk) (hi : Inv s) (hr : 4 ≤ s.rem.toNat) :
    Inv (consumeWord b s) := by
  obtain ⟨hm, he, hspace, hle, hmod⟩ := (inv_bulk_iff hp).1 hi
  have hsum := hspace (by omega)
  have hrem : (s.rem - 4).toNat = s.rem.toNat - 4 := BitVec.toNat_sub_of_le hr
  rw [inv_bulk_iff (consumeWord_phase b s)]
  simp only [consumeWord_mem, consumeWord_ecode, consumeWord_rem, consumeWord_ptr, consumeWord_l, hrem]
  refine ⟨hm, he, fun hpos => ?_, by omega, by omega⟩
  have hptr : (s.ptr + 4).toNat = s.ptr.toNat + 4 :=
    BitVec.toNat_add_of_lt (show s.ptr.toNat + 4 < 4294967296 by omega)
  omega

theorem inv_execBulk {s t : State} (hp : s.phase = .bulk) (hi : Inv s) (h : execBulk s = .next t) : Inv t := by
  rcases execBulk_next h with ⟨hr, rfl⟩ | ⟨hr, -, ⟨b, -, rfl⟩ | ⟨-, rfl⟩⟩
  · obtain ⟨hm, he, hspace, hcount⟩ := (inv_bulk_iff hp).1 hi
    exact (inv_tail_iff rfl).2 ⟨hm, he, hspace, hcount, hr⟩
  · exact inv_consumeWord (s := s.logRead _) b hp hi hr
  · exact inv_enterFault (s := s.logRead _) .iaRead hi.1

theorem inv_execTail {s t : State} (hp : s.phase = .tail) (hi : Inv s) (h : execTail s = .next t) : Inv t := by
  obtain ⟨hm, he, -, hcount, hr⟩ := (inv_tail_iff hp).1 hi
  have hshort := execTail_tailWordIsShort h
  rcases execTail_cases s with ⟨w, rs, ht⟩ | ⟨rs, ht⟩ <;> rw [ht] at h <;> cases h
  · exact (inv_tmix_iff rfl).2 ⟨hm, he, hcount, hr, hshort rfl⟩
  · exact (inv_fault_iff rfl).2 ⟨hm, .inr rfl⟩

theorem inv_execTmix {s t : State} (hp : s.phase = .tmix) (hi : Inv s) (h : execTmix s = .next t) : Inv t := by
  obtain ⟨hm, he, hcount, hr, -⟩ := (inv_tmix_iff hp).1 hi
  cases h
  exact (inv_lmix_iff rfl).2 ⟨hm, he, hcount, hr⟩

theorem inv_execLmix {s t : State} (hp : s.phase = .lmix) (hi : Inv s) (h : execLmix s = .next t) : Inv t := by
  obtain ⟨hm, he, -, hr⟩ := (inv_lmix_iff hp).1 hi
  cases h
  exact (inv_aval_iff rfl).2 ⟨hm, he, hr⟩

theorem inv_execAval {s t : State} (hp : s.phase = .aval) (hi : Inv s) (h : execAval s = .next t) : Inv t := by
  obtain ⟨hm, he, hr⟩ := (inv_aval_iff hp).1 hi
  cases h
  exact (inv_done_iff rfl).2 ⟨hm, he, hr, rfl⟩

/-- The operation PHASE selects keeps the invariant. -/
theorem inv_exec_decodePhase {s t : State} (hi : Inv s) (h : exec (decodePhase s.phase) s = .next t) : Inv t := by
  cases hp : s.phase <;> rw [hp] at h
  case bulk => exact inv_execBulk hp hi h
  case tail => exact inv_execTail hp hi h
  case tmix => exact inv_execTmix hp hi h
  case lmix => exact inv_execLmix hp hi h
  case aval => exact inv_execAval hp hi h
  case idle | done | fault =>
    cases h
    exact hi

/-! ### Every turn keeps it -/

theorem inv_step {s t : State} (hi : Inv s) (h : step s = .next t) : Inv t := by
  rcases step_cases s with ⟨s', -, hs', he⟩ | ⟨e, rest, i, -, hrow, -, he⟩ | ⟨a, rest, -, he⟩ | ⟨rest, -, he⟩ |
    ⟨x, v, rest, -, he⟩ <;> rw [he] at h
  · obtain rfl | ⟨rest, -, rfl⟩ := hs'
    · exact inv_exec_decodePhase hi h
    · exact inv_exec_decodePhase (s := s.take rest) hi h
  · exact inv_exec_host (s := s.take rest) hrow hi h
  · cases h
    exact inv_unmatchedAccess a (s := s.take rest) hi
  · cases h
    exact inv_platformReset (s := s.take rest) hi.1
  · cases h
    exact inv_changeMemory x v (s := s.take rest) hi

/-- Settles O48: an operation or event at a time, `inv_step`. -/
theorem everyStepKeepsTheInvariant : Obligations.EveryStepKeepsTheInvariant := by
  unfold Obligations.EveryStepKeepsTheInvariant
  exact fun s t => inv_step

/-- Settles O47: reset gives IDLE, where only the memory and ECODE are spoken of. -/
theorem resetMeetsTheInvariant : Obligations.ResetMeetsTheInvariant :=
  (inv_idle_iff rfl).2 ⟨reset_mem_wf, rfl⟩

/-! ### No step stops -/

theorem exec_host_completes {i : Instr} (s : State) (hrow : hostRow i = true) : ∃ t, exec i s = .next t := by
  rcases exec_host s hrow with he | ⟨w, he⟩ | ⟨w, he⟩ | ⟨w, he⟩ | ⟨w, he⟩ | ⟨-, -, he⟩ | ⟨-, he⟩ <;> exact ⟨_, he⟩

/-- BULK stops only at a request beyond the top of the buffer space (R51; log 8). -/
theorem execBulk_completes {s : State} (h : 4 ≤ s.rem.toNat → s.ptr.toNat + 4 ≤ spaceSize) :
    ∃ t, execBulk s = .next t := by
  unfold execBulk
  split
  · next hr =>
    simp only [bulkConsume, if_neg (Nat.not_lt.2 (h hr))]
    split <;> exact ⟨_, rfl⟩
  · exact ⟨_, rfl⟩

theorem execTail_completes (s : State) : ∃ t, execTail s = .next t := by
  rcases execTail_cases s with ⟨w, rs, h⟩ | ⟨rs, h⟩ <;> exact ⟨_, h⟩

/-- With PTR + REM inside the buffer space a 4-byte request at PTR is too, as long as REM ≥ 4 (R30). -/
theorem inv_execBulk_completes {s : State} (hp : s.phase = .bulk) (hi : Inv s) : ∃ t, execBulk s = .next t := by
  obtain ⟨-, -, hspace, -⟩ := (inv_bulk_iff hp).1 hi
  refine execBulk_completes fun hr => ?_
  have hsum := hspace (by omega)
  rw [spaceSize]
  omega

theorem exec_decodePhase_completes {s : State} (hi : Inv s) : ∃ t, exec (decodePhase s.phase) s = .next t := by
  cases hp : s.phase
  case bulk => exact inv_execBulk_completes hp hi
  case tail => exact execTail_completes s
  all_goals exact ⟨_, rfl⟩

/-- Settles O49: only the sequencer's BULK could stop, and the invariant excludes it. -/
theorem invariantStatesNeverStop : Obligations.InvariantStatesNeverStop := by
  unfold Obligations.InvariantStatesNeverStop
  intro s hi
  rcases step_cases s with ⟨s', -, hs', he⟩ | ⟨e, rest, i, -, hrow, -, he⟩ | ⟨a, rest, -, he⟩ | ⟨rest, -, he⟩ |
    ⟨x, v, rest, -, he⟩ <;> rw [he]
  · obtain rfl | ⟨rest, -, rfl⟩ := hs'
    · exact exec_decodePhase_completes hi
    · exact exec_decodePhase_completes (s := s.take rest) hi
  · exact exec_host_completes _ hrow
  all_goals exact ⟨_, rfl⟩

end Sys2Proof.Machine
end

section
/-! What the host sees of the state (O11, O16, O46): the fields of STATUS, and the states no host operation tells
apart. -/

namespace Sys2Proof.Machine

/-! ### The fields of STATUS -/

theorem statusWord_bit0 (p : Phase) (e : BitVec 4) : (statusWord p e).getLsbD 0 = busy p := by
  simp [statusWord]

theorem statusWord_bit1 (p : Phase) (e : BitVec 4) : (statusWord p e).getLsbD 1 = doneFlag p := by
  simp [statusWord]

theorem statusWord_bit2 (p : Phase) (e : BitVec 4) : (statusWord p e).getLsbD 2 = errFlag p := by
  simp [statusWord]

theorem statusWord_bit3 (p : Phase) (e : BitVec 4) : (statusWord p e).getLsbD 3 = false := by
  simp [statusWord]

/-- Above bit 3 the three flags do not reach: only ECODE stands there. -/
theorem statusWord_above (p : Phase) (e : BitVec 4) {i : Nat} (hi : i < 28) :
    (statusWord p e).getLsbD (4 + i) = e.getLsbD i := by
  have h32 : 4 + i < 32 := by omega
  have h2 : 4 + i - 2 ≠ 0 := by omega
  simp [statusWord, h32, h2]

theorem statusWord_ecode (p : Phase) (e : BitVec 4) : (statusWord p e).extractLsb' 4 4 = e := by
  ext i hi
  rw [BitVec.getElem_extractLsb', statusWord_above p e (by omega), BitVec.getLsbD_eq_getElem hi]

theorem statusWord_high (p : Phase) (e : BitVec 4) : (statusWord p e).extractLsb' 8 24 = 0#24 := by
  ext i hi
  have habove := statusWord_above p e (i := 4 + i) (by omega)
  rw [← Nat.add_assoc] at habove
  rw [BitVec.getElem_extractLsb', habove, BitVec.getElem_zero]
  exact BitVec.getLsbD_of_ge e (4 + i) (by omega)

/-- Settles O11: the word is `statusWord`, whose fields are those of R33. -/
theorem statusReadShowsPhaseAndCause : Obligations.StatusReadShowsPhaseAndCause := by
  unfold Obligations.StatusReadShowsPhaseAndCause
  intro s
  refine ⟨statusWord s.phase s.ecode, rfl, ?_, ?_, ?_, statusWord_bit3 _ _, statusWord_ecode _ _, statusWord_high _ _⟩
  · rw [statusWord_bit0, busy_eq_true]
  · rw [statusWord_bit1, doneFlag, decide_eq_true_iff]
  · rw [statusWord_bit2, errFlag, decide_eq_true_iff]

/-- Settles O46: the values of `State.reset`. -/
theorem resetStateIsAsTabled : Obligations.ResetStateIsAsTabled :=
  ⟨rfl, rfl, rfl, rfl, rfl, by decide⟩

/-! ### What no host operation tells apart -/

section
variable {s s' : State}

theorem hostAgrees_returnWord (h : HostAgrees s s') {v v' : Word} (hv : v = v') :
    HostAgrees (s.returnWord v) (s'.returnWord v') := by
  obtain ⟨hseed, hlen, haddr, hecode, hdigest, horder, -, hdraws, hphase⟩ := h
  exact ⟨hseed, hlen, haddr, hecode, hdigest, horder, hv, hdraws, hphase⟩

theorem hostAgrees_returnFree (h : HostAgrees s s') : HostAgrees s.returnFree s'.returnFree := by
  obtain ⟨hseed, hlen, haddr, hecode, hdigest, horder, -, hdraws, hphase⟩ := h
  exact ⟨hseed, hlen, haddr, hecode, hdigest, horder, congrArg Config.freeDigest hdraws,
    congrArg (· + 1) hdraws, hphase⟩

theorem statusWord_busy {p : Phase} (e : BitVec 4) (hb : busy p = true) : statusWord p e = statusWord .bulk e := by
  rcases busy_eq_true.1 hb with rfl | rfl | rfl | rfl | rfl <;> rfl

/-- The flags are those of one hold state, or BUSY alone. -/
theorem statusWord_eq_of_hostAgrees (h : HostAgrees s s') :
    statusWord s.phase s.ecode = statusWord s'.phase s'.ecode := by
  obtain ⟨-, -, -, hecode, -, -, -, -, hbusy, hphase⟩ := h
  rw [hecode]
  cases hb : busy s.phase with
  | false => rw [hphase hb]
  | true => rw [statusWord_busy _ hb, statusWord_busy _ (hbusy.symm.trans hb)]

/-- Phases that agree to the host agree on being DONE, which is a hold state. -/
theorem done_iff_of_hostAgrees (h : HostAgrees s s') : s.phase = .done ↔ s'.phase = .done := by
  obtain ⟨-, -, -, -, -, -, -, -, hbusy, hphase⟩ := h
  constructor
  · intro hd
    rw [← hphase (by rw [hd]; rfl), hd]
  · intro hd
    rw [hphase (by rw [hbusy, hd]; rfl), hd]

/-- START takes one of its three outcomes in both states: they agree on BUSY and on the operands of the range test. -/
theorem hostAgrees_startCommand (h : HostAgrees s s') : HostAgrees (startCommand s) (startCommand s') := by
  have ⟨hseed, hlen, haddr, _, hdigest, horder, hrdata, hdraws, hbusy, _⟩ := h
  rw [startCommand, startCommand, ← hbusy, ← haddr, ← hlen]
  split
  · exact h
  · split
    · exact ⟨hseed, hlen, haddr, rfl, hdigest, horder, hrdata, hdraws, rfl, fun _ => rfl⟩
    · exact ⟨hseed, hlen, haddr, rfl, hdigest, horder, hrdata, hdraws, rfl, fun _ => rfl⟩

theorem hostAgrees_exec {i : Instr} {t t' : State} (hrow : hostRow i = true) (h : HostAgrees s s')
    (ht : exec i s = .next t) (ht' : exec i s' = .next t') : HostAgrees t t' := by
  have ⟨hseed, hlen, haddr, hecode, hdigest, horder, hrdata, hdraws, hphase⟩ := h
  cases i
  case idle | bulk | tail | tmix | lmix | aval | done | fault => cases hrow
  all_goals cases ht; cases ht'
  case wrSeed w => exact ⟨rfl, hlen, haddr, hecode, hdigest, horder, hrdata, hdraws, hphase⟩
  case wrLen w => exact ⟨hseed, rfl, haddr, hecode, hdigest, horder, hrdata, hdraws, hphase⟩
  case wrAddr w => exact ⟨hseed, hlen, rfl, hecode, hdigest, horder, hrdata, hdraws, hphase⟩
  case wrCtrl w =>
    split
    · exact hostAgrees_startCommand h
    · exact h
  case start w => exact hostAgrees_startCommand h
  case wrStatus | wrDigest | wrCfg | wrRsvd | ctrlNop => exact h
  case rdSeed => exact hostAgrees_returnWord h hseed
  case rdLen => exact hostAgrees_returnWord h hlen
  case rdAddr => exact hostAgrees_returnWord h haddr
  case rdCtrl | rdRsvd => exact hostAgrees_returnWord h rfl
  case rdStatus => exact hostAgrees_returnWord h (statusWord_eq_of_hostAgrees h)
  case rdDigest =>
    rw [if_congr (done_iff_of_hostAgrees h) rfl rfl]
    split
    · exact hostAgrees_returnWord h hdigest
    · exact hostAgrees_returnFree h
  case rdCfg => exact hostAgrees_returnWord h (congrArg cfgWord horder)

end

/-- Settles O16: every host operation acts alike on two states that agree, `hostAgrees_exec`. -/
theorem hostCannotTellWorkingStateApart : Obligations.HostCannotTellWorkingStateApart := by
  unfold Obligations.HostCannotTellWorkingStateApart
  exact fun i s s' t t' => hostAgrees_exec

end Sys2Proof.Machine
end

section
/-! What the sequencer's operations can write (O39). -/

namespace Sys2Proof.Machine

/-- A sequencer operation writes the working registers, PHASE, ECODE and DIGEST at most, and records its reads. -/
theorem exec_sequencer_frame {i : Instr} {s t : State} (hrow : hostRow i = false) (h : exec i s = .next t) :
    t = { s with
      h := t.h, k := t.k, t := t.t, l := t.l, rem := t.rem, ptr := t.ptr, phase := t.phase, ecode := t.ecode
      digest := t.digest, reads := t.reads } := by
  cases i
  case bulk => rcases execBulk_next h with ⟨-, rfl⟩ | ⟨-, -, ⟨b, -, rfl⟩ | ⟨-, rfl⟩⟩ <;> rfl
  case tail => rcases execTail_cases s with ⟨w, rs, ht⟩ | ⟨rs, ht⟩ <;> cases ht.symm.trans h <;> rfl
  case idle | tmix | lmix | aval | done | fault =>
    cases h
    rfl
  all_goals cases hrow

/-- Settles O39: the operands and the host's and platform's fields are outside what `exec_sequencer_frame` lists. -/
theorem sequencerNeverWritesOperands : Obligations.SequencerNeverWritesOperands := by
  unfold Obligations.SequencerNeverWritesOperands
  intro i s t hrow h
  rw [exec_sequencer_frame hrow h]
  exact ⟨rfl, rfl, rfl, rfl, rfl, rfl, rfl, rfl⟩

end Sys2Proof.Machine
end

section
/-! A host access that is no operation (O6): the decoder rejects it, and an unmatched access only answers a read. -/

namespace Sys2Proof.Machine

/-- An access of another width, misaligned, or above the block decodes to no operation (R79, third row). -/
theorem exists_decodeOffset_rejected (we : Bool) {offset bytes : Nat} (w : Word)
    (h : bytes ≠ 4 ∨ offset % 4 ≠ 0 ∨ 0x1C < offset) : ∃ e, decodeOffset we offset bytes w = .rejected e := by
  unfold decodeOffset
  split
  · exact ⟨_, rfl⟩
  · next hbytes =>
    split
    · exact ⟨_, rfl⟩
    · next halign => exact ⟨_, if_pos ((h.resolve_left hbytes).resolve_left halign)⟩

/-- Settles O6: the access is rejected, so the step is `unmatchedAccess`, in its two directions. -/
theorem malformedAccessReadsZeroWritesNothing : Obligations.MalformedAccessReadsZeroWritesNothing := by
  unfold Obligations.MalformedAccessReadsZeroWritesNothing
  intro s we offset bytes w rest hin hbad
  obtain ⟨e, he⟩ := exists_decodeOffset_rejected we w hbad
  rw [step_unmatched hin ((decodeAccess_offset ..).trans he)]
  constructor
  · rintro rfl
    rfl
  · rintro rfl
    rfl

end Sys2Proof.Machine
end

section
/-! The bulk word as a number (O23). -/

namespace Sys2Proof.Machine

/-- A byte put above a word that ends below it adds its value there. -/
theorem toNat_or_byte_shiftLeft {x : Word} {n : Nat} (b : Byte) (hx : x.toNat < 2 ^ n) (hn : n ≤ 24) :
    (x ||| b.setWidth 32 <<< n).toNat = x.toNat + 2 ^ n * b.toNat := by
  have hfit : b.toNat * 2 ^ n < 2 ^ 32 :=
    calc b.toNat * 2 ^ n < 2 ^ 8 * 2 ^ n := Nat.mul_lt_mul_of_pos_right b.isLt (Nat.two_pow_pos n)
      _ ≤ 2 ^ 8 * 2 ^ 24 := Nat.mul_le_mul_left _ (Nat.pow_le_pow_right (by decide) hn)
  have hbyte : (b.setWidth 32).toNat = b.toNat := BitVec.toNat_setWidth_of_le (by decide)
  rw [BitVec.toNat_or, BitVec.toNat_shiftLeft, hbyte, Nat.shiftLeft_eq, Nat.mod_eq_of_lt hfit, Nat.or_comm,
    Nat.mul_comm, ← Nat.two_pow_add_eq_or_of_lt hx, Nat.add_comm]

/-- Four bytes side by side, the first least significant. -/
theorem toNat_or_four_bytes (b0 b1 b2 b3 : Byte) :
    (b0.setWidth 32 ||| b1.setWidth 32 <<< 8 ||| b2.setWidth 32 <<< 16 ||| b3.setWidth 32 <<< 24 : Word).toNat =
      b0.toNat + 2 ^ 8 * b1.toNat + 2 ^ 16 * b2.toNat + 2 ^ 24 * b3.toNat := by
  have h0 : (b0.setWidth 32).toNat = b0.toNat := BitVec.toNat_setWidth_of_le (by decide)
  have h1 := toNat_or_byte_shiftLeft b1 (n := 8) (x := b0.setWidth 32) (by omega) (by decide)
  have h2 := toNat_or_byte_shiftLeft b2 (n := 16) (x := b0.setWidth 32 ||| b1.setWidth 32 <<< 8) (by omega) (by decide)
  rw [toNat_or_byte_shiftLeft b3 (by omega) (by decide), h2, h1, h0]

/-- Settles O23: each order is four bytes side by side, BE with the last byte least significant. -/
theorem bulkWordFollowsByteOrder : Obligations.BulkWordFollowsByteOrder := by
  unfold Obligations.BulkWordFollowsByteOrder
  intro b0 b1 b2 b3
  exact ⟨toNat_or_four_bytes b0 b1 b2 b3, toNat_or_four_bytes b3 b2 b1 b0⟩

end Sys2Proof.Machine
end

section
/-! The read primitive (O26) and the platform's change of one byte (O27). -/

namespace Sys2Proof.Machine

/-- A nonempty read delivers exactly when its first byte is readable and the others are delivered. -/
theorem readBytes_succ_eq_some {m : Memory} {a n : Nat} {b : Byte} {bs : List Byte} :
    readBytes m a (n + 1) = some (b :: bs) ↔ m.read a = some b ∧ readBytes m (a + 1) n = some bs := by
  cases hb : m.read a <;> cases hr : readBytes m (a + 1) n <;> simp [readBytes, hb, hr]

theorem readBytes_succ_eq_none {m : Memory} {a n : Nat} :
    readBytes m a (n + 1) = none ↔ m.read a = none ∨ readBytes m (a + 1) n = none := by
  cases hb : m.read a <;> cases hr : readBytes m (a + 1) n <;> simp [readBytes, hb, hr]

theorem readBytes_eq_some_iff (m : Memory) (a n : Nat) (b : List Byte) :
    readBytes m a n = some b ↔ b.length = n ∧ ∀ i, i < n → m.read (a + i) = b[i]? := by
  induction n generalizing a b with
  | zero => simp
  | succ n ih =>
    cases b with
    | nil =>
      constructor
      · intro h
        obtain ⟨_, _, -, -, hnil⟩ := readBytes_succ_some h
        cases hnil
      · rintro ⟨hlen, -⟩
        cases hlen
    | cons c bs =>
      rw [readBytes_succ_eq_some, ih, Nat.forall_lt_succ_left]
      simp only [List.length_cons, Nat.add_right_cancel_iff, Nat.add_zero, List.getElem?_cons_zero,
        List.getElem?_cons_succ, Nat.add_assoc, Nat.add_comm 1]
      tauto

theorem readBytes_eq_none_iff (m : Memory) (a n : Nat) :
    readBytes m a n = none ↔ ∃ i, i < n ∧ m.read (a + i) = none := by
  induction n generalizing a with
  | zero => simp
  | succ n ih =>
    rw [readBytes_succ_eq_none, ih, Nat.exists_lt_succ_left]
    simp only [Nat.add_zero, Nat.add_assoc, Nat.add_comm 1]

/-- Settles O26: each direction by induction on the count. -/
theorem memReadDeliversEveryByteOrNone : Obligations.MemReadDeliversEveryByteOrNone := by
  unfold Obligations.MemReadDeliversEveryByteOrNone
  exact fun m a n => ⟨readBytes_eq_some_iff m a n, readBytes_eq_none_iff m a n⟩

/-- Settles O27: the step is `changeMemory`, and the laws of `Memory.set` say what the memory then answers. -/
theorem memoryEventChangesOneAddress : Obligations.MemoryEventChangesOneAddress := by
  unfold Obligations.MemoryEventChangesOneAddress
  intro s x v rest hm hin
  exact ⟨s.mem.set x.toNat v, step_memory hin, Memory.set_wf hm x.isLt v, Memory.read_set_same hm x.toNat v,
    fun a ha => Memory.read_set_other s.mem v ha⟩

end Sys2Proof.Machine
end

section
/-! What every operation leaves of memory, of the record of reads and of the byte order (O28, O29, O44). -/

namespace Sys2Proof.Machine

/-- A START command writes the registers of the run, PHASE and ECODE at most (R138, R171). -/
theorem startCommand_frame (s : State) :
    startCommand s = { s with
      h := (startCommand s).h, l := (startCommand s).l, rem := (startCommand s).rem, ptr := (startCommand s).ptr
      phase := (startCommand s).phase, ecode := (startCommand s).ecode } := by
  rcases startCommand_cases s with ⟨-, h⟩ | ⟨-, -, h⟩ | ⟨-, -, h⟩ <;> rw [h] <;> rfl

/-- A host operation writes an operand register, the word returned and the count of free words, or what START writes. -/
theorem exec_host_frame {i : Instr} {s t : State} (hrow : hostRow i = true) (h : exec i s = .next t) :
    t = { s with
      seed := t.seed, len := t.len, addr := t.addr, h := t.h, l := t.l, rem := t.rem, ptr := t.ptr, phase := t.phase
      ecode := t.ecode, rdata := t.rdata, draws := t.draws } := by
  rcases exec_host s hrow with he | ⟨w, he⟩ | ⟨w, he⟩ | ⟨w, he⟩ | ⟨w, he⟩ | ⟨-, -, he⟩ | ⟨-, he⟩ <;>
    rw [he] at h <;> cases h
  any_goals rfl
  rw [startCommand_frame]

/-- No operation is outside the two frames, and neither lists memory. -/
theorem exec_mem {i : Instr} {s t : State} (h : exec i s = .next t) : t.mem = s.mem := by
  cases hrow : hostRow i with
  | true => rw [exec_host_frame hrow h]
  | false => rw [exec_sequencer_frame hrow h]

/-- Nor does either list the byte order (R52). -/
theorem exec_byteOrder {i : Instr} {s t : State} (h : exec i s = .next t) : t.byteOrder = s.byteOrder := by
  cases hrow : hostRow i with
  | true => rw [exec_host_frame hrow h]
  | false => rw [exec_sequencer_frame hrow h]

/-- Settles O28: `exec_mem`; what an address reads as is a function of the memory. -/
theorem noOperationWritesMemory : Obligations.NoOperationWritesMemory := by
  unfold Obligations.NoOperationWritesMemory
  intro i s t h
  have hm := exec_mem h
  exact ⟨hm, fun a => by rw [hm]⟩

/-- Settles O29: the host's frame leaves the record alone, and so does each other step of the sequencer. -/
theorem onlyBulkAndTailReadMemory : Obligations.OnlyBulkAndTailReadMemory := by
  unfold Obligations.OnlyBulkAndTailReadMemory
  intro i s t h hbulk htail
  cases hrow : hostRow i with
  | true => rw [exec_host_frame hrow h]
  | false =>
    cases i
    case bulk => exact absurd rfl hbulk
    case tail => exact absurd rfl htail
    case idle | tmix | lmix | aval | done | fault =>
      cases h
      rfl
    all_goals cases hrow

theorem unmatchedAccess_byteOrder (a : Access) (s : State) : (unmatchedAccess a s).byteOrder = s.byteOrder := by
  unfold unmatchedAccess
  split <;> rfl

/-- Settles O44: no operation writes the byte order, nor does an event of the platform, reset included. -/
theorem byteOrderIsNeverSwitched : Obligations.ByteOrderIsNeverSwitched := by
  unfold Obligations.ByteOrderIsNeverSwitched
  intro s t h
  rcases step_cases s with ⟨s', -, hs', he⟩ | ⟨e, rest, i, -, -, -, he⟩ | ⟨a, rest, -, he⟩ | ⟨rest, -, he⟩ |
    ⟨x, v, rest, -, he⟩ <;> rw [he] at h
  · rw [exec_byteOrder h]
    obtain rfl | ⟨rest, -, rfl⟩ := hs' <;> rfl
  · rw [exec_byteOrder h, State.take_byteOrder]
  · cases h
    exact unmatchedAccess_byteOrder a _
  · cases h
    rfl
  · cases h
    rfl

end Sys2Proof.Machine
end

section
/-! The reads of the sequencer: TAIL's do not depend on the byte order (O34), and BULK's lies inside the buffer space or
stops the model (O31). -/

namespace Sys2Proof.Machine

/-- A change of the state that TAIL's reads do not see: REM, PTR and memory, which they look at, stay, and it may be
made before or after a read is recorded. -/
structure UnseenByTailReads (f : State → State) : Prop where
  rem : ∀ s, (f s).rem = s.rem
  ptr : ∀ s, (f s).ptr = s.ptr
  mem : ∀ s, (f s).mem = s.mem
  logRead : ∀ r s, (f s).logRead r = f (s.logRead r)

/-- The state changed, wherever TAIL stands between its reads. -/
def TailStep.mapState (f : State → State) : TailStep → TailStep
  | .packed t s => .packed t (f s)
  | .refused s => .refused (f s)

theorem tailByte_mapState {f : State → State} (hf : UnseenByTailReads f) (offset : Nat) (x : TailStep) :
    tailByte offset (x.mapState f) = (tailByte offset x).mapState f := by
  cases x with
  | refused s => rfl
  | packed t s =>
    simp only [TailStep.mapState, tailByte, hf.rem, hf.ptr, hf.mem, hf.logRead, busRead_answer]
    split
    · split <;> rfl
    · rfl

theorem tailReads_mapState {f : State → State} (hf : UnseenByTailReads f) (s : State) :
    tailReads (f s) = (tailReads s).mapState f := by
  simp only [tailReads, ← tailByte_mapState hf]
  rfl

/-- The same state with the byte order `o`. -/
def State.withByteOrder (o : ByteOrder) (s : State) : State := { s with byteOrder := o }

/-- Nothing TAIL's reads look at is the byte order (R53). -/
theorem withByteOrder_unseenByTailReads (o : ByteOrder) : UnseenByTailReads (State.withByteOrder o) :=
  ⟨fun _ => rfl, fun _ => rfl, fun _ => rfl, fun _ _ => rfl⟩

/-- Settles O34: the byte order may be changed before TAIL's reads or after them. -/
theorem tailIgnoresTheByteOrder : Obligations.TailIgnoresTheByteOrder := by
  unfold Obligations.TailIgnoresTheByteOrder
  intro s t o h
  have hreads : tailReads { s with byteOrder := o } = (tailReads s).mapState (State.withByteOrder o) :=
    tailReads_mapState (withByteOrder_unseenByTailReads o) s
  simp only [exec, execTail] at h ⊢
  rw [hreads]
  cases hr : tailReads s <;> rw [hr] at h <;> cases h <;> rfl

theorem execBulk_beyondSpace {s : State} (hrem : 4 ≤ s.rem.toNat) (hptr : spaceSize < s.ptr.toNat + 4) :
    execBulk s = .fault .readOutsideBufferSpace := by
  rw [execBulk, if_pos hrem, bulkConsume, if_pos hptr]

/-- Settles O31: REM asks for a word, and the request does not fit in the space. -/
theorem bulkBeyondTheBufferSpaceStops : Obligations.BulkBeyondTheBufferSpaceStops := by
  unfold Obligations.BulkBeyondTheBufferSpaceStops
  exact fun s => execBulk_beyondSpace

end Sys2Proof.Machine
end

section
/-! The tables of the encodings (O1, O2, O3), the command in a CTRL write (O20), decoding and encoding as inverses (O4),
and the accesses that decode to nothing (O5). -/

namespace Sys2Proof

/-! ### The tables -/

/-- Settles O1: the table of R72 is the decoder's, entry by entry. -/
theorem hostHeadersSelectOperations : Obligations.HostHeadersSelectOperations := by
  unfold Obligations.HostHeadersSelectOperations
  exact fun w => ⟨⟨rfl, rfl, rfl, rfl, rfl, rfl, rfl, rfl⟩, rfl, rfl, rfl, rfl, rfl, rfl, rfl, rfl⟩

/-- The mask of R73 leaves bit 0. -/
theorem getLsbD_zero_and_one (w : Word) : (w &&& 1#32).getLsbD 0 = w.getLsbD 0 := by
  rw [BitVec.getLsbD_and, show (1#32).getLsbD 0 = true from rfl, Bool.and_true]

theorem bit0_set_of_and_one {w : Word} (h : w &&& 0x00000001#32 = 0x00000001#32) : w.getLsbD 0 = true := by
  rw [← getLsbD_zero_and_one, h]
  rfl

theorem bit0_clear_of_and_one {w : Word} (h : w &&& 0x00000001#32 = 0x00000000#32) : w.getLsbD 0 = false := by
  rw [← getLsbD_zero_and_one, h]
  rfl

theorem decodeCtrl_of_bit0_set {w : Word} (h : w.getLsbD 0 = true) : decodeCtrl w = .start w := if_pos h

theorem decodeCtrl_of_bit0_clear {w : Word} (h : w.getLsbD 0 = false) : decodeCtrl w = .ctrlNop w :=
  if_neg (Bool.eq_false_iff.1 h)

/-- Settles O2: the mask reads bit 0, which is what the decoder tests. -/
theorem ctrlWordSelectsCommand : Obligations.CtrlWordSelectsCommand := by
  unfold Obligations.CtrlWordSelectsCommand
  exact fun w => ⟨fun h => congrArg Decoded.instr (decodeCtrl_of_bit0_set (bit0_set_of_and_one h)),
    fun h => congrArg Decoded.instr (decodeCtrl_of_bit0_clear (bit0_clear_of_and_one h))⟩

/-- Every code stands for a phase with that code, so none is illegal (R76). -/
theorem phaseCode_phaseOfCode : ∀ c : BitVec 3, phaseCode (phaseOfCode c) = c := by
  decide

/-- Settles O3: the table of R76, and the two inverses. -/
theorem phaseCodesSelectOperations : Obligations.PhaseCodesSelectOperations := by
  unfold Obligations.PhaseCodesSelectOperations
  exact ⟨⟨rfl, rfl, rfl, rfl, rfl, rfl, rfl, rfl⟩, phaseOfCode_phaseCode, phaseCode_phaseOfCode⟩

/-! ### Decoding and encoding -/

/-- Only the two commands constrain their word, and bit 0 is what they constrain (R73). -/
theorem decode_encode {i : Instr} (h : i.wellFormed = true) : decode (encode i) = .instr i := by
  cases i with
  | start w => exact congrArg Decoded.instr (decodeCtrl_of_bit0_set h)
  | ctrlNop w => exact congrArg Decoded.instr (decodeCtrl_of_bit0_clear (Bool.eq_false_of_not_eq_true' h))
  | _ => rfl

/-- A listed header encodes back, with the data word of a write and 0 for a read (R71). -/
theorem encode_of_decodeHost {header : BitVec 6} {w : Word} {i : Instr} (h : decodeHost header w = .instr i) :
    i.wellFormed = true ∧ encode i = .host header (if header.getLsbD 5 then w else 0) := by
  have hheader : BitVec.ofNat 6 header.toNat = header := (BitVec.ofNat_toNat 6 header).trans (BitVec.setWidth_eq header)
  unfold decodeHost at h
  split at h
  case h_17 => cases h
  all_goals
    next hcode =>
      rw [hcode] at hheader
      subst hheader
      cases h
      exact ⟨rfl, rfl⟩

theorem wellFormed_decodeCtrl (w : Word) : (decodeCtrl w).wellFormed = true := by
  cases h : w.getLsbD 0 with
  | true => rw [decodeCtrl_of_bit0_set h, Instr.wellFormed, h]
  | false => rw [decodeCtrl_of_bit0_clear h, Instr.wellFormed, h, Bool.not_false]

theorem encode_decodeCtrl (w : Word) : encode (decodeCtrl w) = .ctrl w := by
  cases h : w.getLsbD 0 with
  | true => rw [decodeCtrl_of_bit0_set h, encode]
  | false => rw [decodeCtrl_of_bit0_clear h, encode]

theorem wellFormed_decodePhase (p : Phase) : (decodePhase p).wellFormed = true := by
  cases p <;> rfl

theorem encode_decodePhase (p : Phase) : encode (decodePhase p) = .phase (phaseCode p) := by
  cases p <;> rfl

/-- Settles O4: each format's decoder answers well-formed operations, which encode back. -/
theorem decodeAndEncodeAgree : Obligations.DecodeAndEncodeAgree := by
  unfold Obligations.DecodeAndEncodeAgree
  refine ⟨fun i => decode_encode, fun o i h => ?_⟩
  cases o with
  | host header w =>
    obtain ⟨hwf, henc⟩ := encode_of_decodeHost h
    refine ⟨hwf, ?_⟩
    cases hwe : header.getLsbD 5 with
    | true => exact .inl (by rw [henc, hwe, if_pos rfl])
    | false => exact .inr ⟨header, w, rfl, hwe, by rw [henc, hwe, if_neg Bool.false_ne_true]⟩
  | ctrl w =>
    cases h
    exact ⟨wellFormed_decodeCtrl w, .inl (encode_decodeCtrl w)⟩
  | phase code =>
    cases h
    exact ⟨wellFormed_decodePhase _, .inl (by rw [encode_decodePhase, phaseCode_phaseOfCode])⟩

end Sys2Proof

namespace Sys2Proof.Machine

/-- Settles O20: WR.CTRL performs the START command exactly when bit 0 of its word is set. -/
theorem ctrlWriteIsTheCommandOfItsWord : Obligations.CtrlWriteIsTheCommandOfItsWord := by
  unfold Obligations.CtrlWriteIsTheCommandOfItsWord
  intro s w
  refine ⟨if w.getLsbD 0 then startCommand s else s, rfl, fun h => ?_, fun h => ?_⟩
  · rw [if_pos h]
    rfl
  · rw [h, if_neg Bool.false_ne_true]

/-! ### The accesses that decode to nothing -/

/-- Every aligned header is listed in the table of R72. -/
theorem exists_decodeHost_instr {header : BitVec 6} (w : Word) (h : header.toNat % 4 = 0) :
    ∃ i, decodeHost header w = .instr i := by
  unfold decodeHost
  split
  case h_17 =>
    simp only [imp_false] at *
    omega
  all_goals exact ⟨_, rfl⟩

/-- The direction bit lies above the offset, so a header is aligned as its offset is (R71). -/
theorem headerOf_aligned (we : Bool) {offset : Nat} (h : offset % 4 = 0) : (headerOf we offset).toNat % 4 = 0 := by
  rw [headerOf, BitVec.toNat_ofNat]
  cases we <;> simp <;> omega

/-- The block's decoder rejects what the third row of R79 names, and no more. -/
theorem decodeOffset_rejected_iff (we : Bool) (offset bytes : Nat) (w : Word) :
    (∃ e, decodeOffset we offset bytes w = .rejected e) ↔ bytes ≠ 4 ∨ offset % 4 ≠ 0 ∨ 0x1C < offset := by
  refine ⟨fun ⟨e, he⟩ => ?_, exists_decodeOffset_rejected we w⟩
  by_contra hgood
  obtain ⟨hbytes, halign, hinside⟩ : bytes = 4 ∧ offset % 4 = 0 ∧ ¬0x1C < offset := by omega
  obtain ⟨i, hi⟩ := exists_decodeHost_instr w (headerOf_aligned we halign)
  rw [decodeOffset, if_neg (not_not_intro hbytes), if_neg (not_not_intro halign), if_neg hinside, hi] at he
  cases he

/-- Settles O5: below the block there is no offset; from REG_BASE up the offset is the one the block's decoder sees. -/
theorem onlyMalformedAccessesAreRejected : Obligations.OnlyMalformedAccessesAreRejected := by
  unfold Obligations.OnlyMalformedAccessesAreRejected
  rintro base ⟨we, addr, bytes, w⟩
  rcases Nat.lt_or_ge addr base with hbelow | hfrom
  · exact ⟨fun _ => .inr fun ⟨offset, hoffset, _⟩ => by simp only at hoffset; omega, fun _ => ⟨_, if_pos hbelow⟩⟩
  · obtain ⟨offset, rfl⟩ := Nat.exists_eq_add_of_le hfrom
    have hunique : (∃ o, base + offset = base + o ∧ o % 4 = 0 ∧ o ≤ 0x1C) ↔ offset % 4 = 0 ∧ offset ≤ 0x1C := by
      simp only [Nat.add_left_cancel_iff, exists_eq_left']
    rw [decodeAccess_offset, decodeOffset_rejected_iff, hunique, not_and_or, Nat.not_le]

end Sys2Proof.Machine
end

section
/-! What the sequencer's reads do on readable bytes (R100, R111), and the reference function and the read footprint seen
from the bytes still to be read. -/

namespace Sys2Proof.Machine

/-! ### Hash and the footprint of the bytes still to be read -/

/-- What R150 makes of the bytes `y` still to be read, from the accumulator `h` and the captured length `l`. -/
def hashFrom (o : ByteOrder) (y : List Byte) (h l : Word) : Word :=
  fmix (mixH (mixH (hashBulk o y h (y.length / 4)) (hashTail y)) l)

theorem hashFrom_seed (o : ByteOrder) (b : List Byte) (seed : Word) :
    hashFrom o b seed (BitVec.ofNat 32 b.length) = refHash o b seed := rfl

theorem mix_fst (h k : Word) : (mix h k).1 = mixH h k := by
  rw [mix]

/-- The first bulk word may be folded before the others. -/
theorem hashBulk_succ (o : ByteOrder) (b : List Byte) (h : Word) (i : Nat) :
    hashBulk o b h (i + 1) = hashBulk o (b.drop 4) (mixH h (word o (b.take 4))) i := by
  induction i with
  | zero => rw [hashBulk, hashBulk, hashBulk, bulkBytes, Nat.mul_zero, List.drop_zero]
  | succ i ih => rw [hashBulk, ih, hashBulk, bulkBytes, bulkBytes, List.drop_drop, Nat.mul_succ, Nat.add_comm 4]

theorem hashTail_drop_word {y : List Byte} (hy : 4 ≤ y.length) : hashTail (y.drop 4) = hashTail y := by
  have hcount : y.length / 4 = (y.length - 4) / 4 + 1 := by omega
  have hmod : (y.length - 4) % 4 = y.length % 4 := by omega
  rw [hashTail, hashTail, tailBytes, tailBytes, List.length_drop, hmod, List.drop_drop, hcount, Nat.mul_succ,
    Nat.add_comm 4]

theorem hashFrom_drop_word (o : ByteOrder) {y : List Byte} (hy : 4 ≤ y.length) (h l : Word) :
    hashFrom o (y.drop 4) (mixH h (word o (y.take 4))) l = hashFrom o y h l := by
  have hcount : y.length / 4 = (y.length - 4) / 4 + 1 := by omega
  rw [hashFrom, hashFrom, hashTail_drop_word hy, List.length_drop, hcount, hashBulk_succ]

/-- Fewer than four bytes are all tail. -/
theorem hashFrom_tail (o : ByteOrder) {y : List Byte} (hy : y.length < 4) (h l : Word) :
    hashFrom o y h l = fmix (mixH (mixH h (tailPack y.length y)) l) := by
  rw [hashFrom, hashTail, tailBytes, Nat.div_eq_of_lt hy, Nat.mod_eq_of_lt hy, Nat.mul_zero, List.drop_zero, hashBulk]

theorem footprint_drop_word (a : Nat) {n : Nat} (hn : 4 ≤ n) :
    footprint a n = (a, 4) :: footprint (a + 4) (n - 4) := by
  obtain ⟨m, rfl⟩ := Nat.exists_eq_add_of_le' hn
  have hcount : (m + 4) / 4 = m / 4 + 1 := by omega
  have hstart : ∀ i, a + 4 * (i + 1) = a + 4 + 4 * i := by omega
  simp only [footprint, hcount, Nat.add_mod_right, Nat.add_sub_cancel, List.range_succ_eq_map, List.map_cons,
    List.map_map, List.cons_append, Nat.mul_zero, Nat.add_zero, Function.comp_def, Nat.succ_eq_add_one, hstart]

theorem footprint_tail (a : Nat) {n : Nat} (hn : n < 4) :
    footprint a n = (List.range n).reverse.map fun j => (a + j, 1) := by
  simp [footprint, Nat.div_eq_of_lt hn, Nat.mod_eq_of_lt hn]

/-! ### BULK and TAIL on readable bytes -/

/-- A buffer of at least four readable bytes answers a 4-byte request with the first four (R51). -/
theorem readBytes_of_bufferAt {m : Memory} {p : Nat} {y : List Byte} (hbuf : BufferAt m p y) (hy : 4 ≤ y.length) :
    readBytes m p 4 = some (y.take 4) := by
  rw [readBytes_eq_some_iff]
  refine ⟨List.length_take_of_le hy, fun i hi => ?_⟩
  rw [hbuf i (by omega), List.getElem?_take_of_lt hi]

/-- BULK with a readable word at PTR consumes it (R100). -/
theorem execBulk_of_bufferAt {s : State} {y : List Byte} (hrem : 4 ≤ s.rem.toNat) (hspace : s.ptr.toNat + 4 ≤ spaceSize)
    (hbuf : BufferAt s.mem s.ptr.toNat y) (hy : 4 ≤ y.length) :
    execBulk s = .next (consumeWord (y.take 4) (s.logRead (busRead s.mem s.ptr.toNat 4))) := by
  obtain ⟨t, ht⟩ := execBulk_completes fun _ => hspace
  have hread := readBytes_of_bufferAt hbuf hy
  rcases execBulk_next ht with ⟨hlt, -⟩ | ⟨-, -, ⟨b, hb, rfl⟩ | ⟨hnone, -⟩⟩
  · omega
  · rw [ht, Option.some.inj (hread.symm.trans hb)]
  · cases hread.symm.trans hnone

section
variable {s : State} {y : List Byte} {offset : Nat} (t : Word) (hrem : s.rem.toNat = y.length)
include hrem

/-- TAIL makes no read at an offset that REM does not exceed (R111). -/
theorem tailByte_skips (h : y.length ≤ offset) : tailByte offset (.packed t s) = .packed t s := by
  rcases (tailByte_cases offset (.packed t s)).2 t s rfl with ⟨-, he⟩ | ⟨hlt, -⟩
  · exact he
  · omega

/-- TAIL packs a readable byte into its lane and records the read (R111). -/
theorem tailByte_packs (hspace : s.ptr.toNat + y.length ≤ 2 ^ 32) (hbuf : BufferAt s.mem s.ptr.toNat y)
    (h : offset < y.length) :
    tailByte offset (.packed t s) = .packed (tailLane t offset (byteAt y offset))
      (s.logRead ⟨s.ptr.toNat + offset, 1, y[offset]?.map fun b => [b]⟩) := by
  have haddr : (s.ptr + BitVec.ofNat 32 offset).toNat = s.ptr.toNat + offset := by
    rw [BitVec.toNat_add, BitVec.toNat_ofNat, Nat.add_mod_mod, Nat.mod_eq_of_lt (by omega)]
  have hread : readBytes s.mem (s.ptr.toNat + offset) 1 = some [y[offset]] := by
    rw [readBytes_one, hbuf offset h, List.getElem?_eq_getElem h, Option.map_some]
  have hbyte : byteAt [y[offset]] 0 = byteAt y offset := by
    simp [byteAt, h]
  rcases (tailByte_cases offset (.packed t s)).2 t s rfl with ⟨hle, -⟩ | ⟨-, ⟨b, hb, he⟩ | ⟨hnone, -⟩⟩
  · omega
  · rw [haddr, hread] at hb
    cases hb
    rw [he, haddr, hbyte, busRead, hread, List.getElem?_eq_getElem h, Option.map_some]
  · rw [haddr, hread] at hnone
    cases hnone

end

/-- TAIL packs the 0 to 3 readable bytes at PTR and records their reads, the highest first (R110, R111, R56). -/
theorem execTail_of_bufferAt {s : State} {y : List Byte} (hrem : s.rem.toNat = y.length) (hshort : y.length < 4)
    (hspace : s.ptr.toNat + y.length ≤ 2 ^ 32) (hbuf : BufferAt s.mem s.ptr.toNat y) :
    execTail s = .next { s with
      t := tailPack y.length y, phase := .tmix
      reads := s.reads ++
        (List.range y.length).reverse.map fun j => ⟨s.ptr.toNat + j, 1, y[j]?.map fun b => [b]⟩ } := by
  rw [execTail, tailReads]
  match y, hshort with
  | [], _ =>
    rw [tailByte_skips _ hrem (by simp), tailByte_skips _ hrem (by simp), tailByte_skips _ hrem (by simp)]
    simp [tailPack]
  | [b0], _ =>
    rw [tailByte_skips _ hrem (by simp), tailByte_skips _ hrem (by simp), tailByte_packs _ hrem hspace hbuf (by simp)]
    simp [tailPack, State.logRead]
  | [b0, b1], _ =>
    rw [tailByte_skips _ hrem (by simp), tailByte_packs _ hrem hspace hbuf (by simp),
      tailByte_packs (s := s.logRead _) _ hrem hspace hbuf (by simp)]
    simp [tailPack, State.logRead, List.range_succ]
  | [b0, b1, b2], _ =>
    rw [tailByte_packs _ hrem hspace hbuf (by simp), tailByte_packs (s := s.logRead _) _ hrem hspace hbuf (by simp),
      tailByte_packs (s := (s.logRead _).logRead _) _ hrem hspace hbuf (by simp)]
    simp [tailPack, State.logRead, List.range_succ]

end Sys2Proof.Machine
end

section
/-! A run under interleaving (R152 (4)): what holds of a state with `k` of the sequencer's turns left, that a turn of the
sequencer leaves one fewer and that every other turn which leaves the run alone keeps it. -/

namespace Sys2Proof.Machine

/-! ### A state in mid-run -/

/-- The requests made so far, as address and size. -/
abbrev State.requests (s : State) : List (Nat × Nat) := s.reads.map fun r => (r.addr, r.size)

/-- The bytes `y` are those still to be read: REM of them, readable from PTR up, inside the buffer of `n` bytes at `a`. -/
def BytesLeft (a n : Nat) (s : State) (y : List Byte) : Prop :=
  s.rem.toNat = y.length ∧ (0 < y.length → a ≤ s.ptr.toNat ∧ s.ptr.toNat + y.length ≤ a + n) ∧
    BufferAt s.mem s.ptr.toNat y

/-- With the bytes `y` still to be read the run ends with the digest `d` and the record of requests `reqs`. -/
def EndsWith (d : Word) (reqs : List (Nat × Nat)) (s : State) (y : List Byte) : Prop :=
  hashFrom s.byteOrder y s.h s.l = d ∧ s.requests ++ footprint s.ptr.toNat y.length = reqs

/-- A run on the buffer of `n` bytes at `a` has `k` of the sequencer's turns left, and ends with the digest `d` and the
record of requests `reqs`. -/
def RunLeft (a n : Nat) (d : Word) (reqs : List (Nat × Nat)) (s : State) (k : Nat) : Prop :=
  s.ecode = 0#4 ∧
  match s.phase with
  | .bulk => ∃ y, BytesLeft a n s y ∧ EndsWith d reqs s y ∧ k = y.length / 4 + 5
  | .tail => ∃ y, BytesLeft a n s y ∧ EndsWith d reqs s y ∧ y.length < 4 ∧ k = 4
  | .tmix => fmix (mixH (mixH s.h s.t) s.l) = d ∧ s.requests = reqs ∧ k = 3
  | .lmix => fmix (mixH s.h s.l) = d ∧ s.requests = reqs ∧ k = 2
  | .aval => fmix s.h = d ∧ s.requests = reqs ∧ k = 1
  | .done => s.digest = d ∧ s.requests = reqs ∧ k = 0
  | .idle => False
  | .fault => False

section
variable {a n k : Nat} {d : Word} {reqs : List (Nat × Nat)} {s : State}

theorem runLeft_bulk_iff (hp : s.phase = .bulk) : RunLeft a n d reqs s k ↔
    s.ecode = 0#4 ∧ ∃ y, BytesLeft a n s y ∧ EndsWith d reqs s y ∧ k = y.length / 4 + 5 := by
  simp only [RunLeft, hp]

theorem runLeft_tail_iff (hp : s.phase = .tail) : RunLeft a n d reqs s k ↔
    s.ecode = 0#4 ∧ ∃ y, BytesLeft a n s y ∧ EndsWith d reqs s y ∧ y.length < 4 ∧ k = 4 := by
  simp only [RunLeft, hp]

theorem runLeft_tmix_iff (hp : s.phase = .tmix) : RunLeft a n d reqs s k ↔
    s.ecode = 0#4 ∧ fmix (mixH (mixH s.h s.t) s.l) = d ∧ s.requests = reqs ∧ k = 3 := by
  simp only [RunLeft, hp]

theorem runLeft_lmix_iff (hp : s.phase = .lmix) : RunLeft a n d reqs s k ↔
    s.ecode = 0#4 ∧ fmix (mixH s.h s.l) = d ∧ s.requests = reqs ∧ k = 2 := by
  simp only [RunLeft, hp]

theorem runLeft_aval_iff (hp : s.phase = .aval) : RunLeft a n d reqs s k ↔
    s.ecode = 0#4 ∧ fmix s.h = d ∧ s.requests = reqs ∧ k = 1 := by
  simp only [RunLeft, hp]

theorem runLeft_done_iff (hp : s.phase = .done) : RunLeft a n d reqs s k ↔
    s.ecode = 0#4 ∧ s.digest = d ∧ s.requests = reqs ∧ k = 0 := by
  simp only [RunLeft, hp]

theorem busy_of_runLeft (h : RunLeft a n d reqs s (k + 1)) : busy s.phase = true := by
  cases hp : s.phase
  case idle | done | fault => simp [RunLeft, hp] at h
  all_goals rfl

theorem runLeft_zero_iff :
    RunLeft a n d reqs s 0 ↔ s.phase = .done ∧ s.ecode = 0#4 ∧ s.digest = d ∧ s.requests = reqs := by
  cases hp : s.phase <;> simp [RunLeft, hp]

/-! ### The sequencer's turns -/

theorem hostRow_decodePhase (p : Phase) : hostRow (decodePhase p) = false := by
  cases p <;> rfl

/-- A consumed word leaves the bytes above it; PTR may wrap only when none is left (R30). -/
theorem bytesLeft_consumeWord (hspace : a + n ≤ 2 ^ 32) {y : List Byte} (r : BusRead) (hy : 4 ≤ y.length)
    (h : BytesLeft a n s y) : BytesLeft a n (consumeWord (y.take 4) (s.logRead r)) (y.drop 4) := by
  obtain ⟨hrem, hinside, hbuf⟩ := h
  have hin := hinside (by omega)
  have hrem' : (s.rem - 4).toNat = s.rem.toNat - 4 := BitVec.toNat_sub_of_le (show 4 ≤ s.rem.toNat by omega)
  have hptr : 4 < y.length → (s.ptr + 4).toNat = s.ptr.toNat + 4 := fun hlt =>
    BitVec.toNat_add_of_lt (show s.ptr.toNat + 4 < 2 ^ 32 by omega)
  simp only [BytesLeft, consumeWord_rem, consumeWord_ptr, consumeWord_mem, State.logRead_rem, State.logRead_ptr,
    State.logRead_mem, List.length_drop, hrem']
  refine ⟨by omega, fun hpos => ?_, fun i hi => ?_⟩
  · rw [hptr (by omega)]
    omega
  · rw [List.length_drop] at hi
    rw [hptr (by omega), Nat.add_assoc, hbuf (4 + i) (by omega), List.getElem?_drop]

/-- Consuming a word folds it into H and makes the first of the requests to come, so the run's end stays the same. -/
theorem endsWith_consumeWord {y : List Byte} (hy : 4 ≤ y.length) (hspace : s.ptr.toNat + y.length ≤ 2 ^ 32)
    (h : EndsWith d reqs s y) :
    EndsWith d reqs (consumeWord (y.take 4) (s.logRead (busRead s.mem s.ptr.toNat 4))) (y.drop 4) := by
  obtain ⟨hhash, hreqs⟩ := h
  have hpending : footprint (s.ptr + 4).toNat (y.length - 4) = footprint (s.ptr.toNat + 4) (y.length - 4) := by
    rcases Nat.eq_or_lt_of_le hy with hlast | hmore
    · rw [← hlast]
      rfl
    · rw [BitVec.toNat_add_of_lt (show s.ptr.toNat + 4 < 2 ^ 32 by omega)]
      rfl
  constructor
  · rw [← hhash, ← hashFrom_drop_word _ hy, consumeWord_byteOrder, consumeWord_h, consumeWord_l, mix_fst]
    rfl
  · rw [← hreqs, footprint_drop_word _ hy, ← hpending, consumeWord_ptr, State.logRead_ptr, List.length_drop,
      State.requests, consumeWord_reads, State.logRead_reads, List.map_append, List.map_singleton, List.append_assoc,
      List.singleton_append, busRead]

theorem runLeft_execBulk (hspace : a + n ≤ 2 ^ 32) (hp : s.phase = .bulk) (h : RunLeft a n d reqs s (k + 1)) :
    ∃ t, execBulk s = .next t ∧ RunLeft a n d reqs t k := by
  obtain ⟨hecode, y, hleft, hends, hk⟩ := (runLeft_bulk_iff hp).1 h
  have ⟨hrem, hinside, hbuf⟩ := hleft
  rcases Nat.lt_or_ge y.length 4 with hy | hy
  · refine ⟨{ s with phase := .tail }, if_neg (by omega), (runLeft_tail_iff rfl).2 ?_⟩
    exact ⟨hecode, y, hleft, hends, hy, by omega⟩
  · have hin := hinside (by omega)
    refine ⟨_, execBulk_of_bufferAt (by omega) (show s.ptr.toNat + 4 ≤ 4294967296 by omega) hbuf hy,
      (runLeft_bulk_iff (consumeWord_phase ..)).2 ⟨?_, y.drop 4, ?_, ?_, ?_⟩⟩
    · rw [consumeWord_ecode, State.logRead_ecode, hecode]
    · exact bytesLeft_consumeWord hspace _ hy hleft
    · exact endsWith_consumeWord hy (by omega) hends
    · rw [List.length_drop]
      omega

theorem runLeft_execTail (hspace : a + n ≤ 2 ^ 32) (hp : s.phase = .tail) (h : RunLeft a n d reqs s (k + 1)) :
    ∃ t, execTail s = .next t ∧ RunLeft a n d reqs t k := by
  obtain ⟨hecode, y, ⟨hrem, hinside, hbuf⟩, ⟨hhash, hreqs⟩, hy, hk⟩ := (runLeft_tail_iff hp).1 h
  have ht := execTail_of_bufferAt hrem hy (by omega) hbuf
  rw [hashFrom_tail _ hy] at hhash
  rw [footprint_tail _ hy] at hreqs
  refine ⟨_, ht, (runLeft_tmix_iff rfl).2 ⟨hecode, hhash, ?_, by omega⟩⟩
  rw [← hreqs]
  simp [State.requests]

/-- Each of the sequencer's turns leaves one fewer. -/
theorem runLeft_exec_decodePhase (hspace : a + n ≤ 2 ^ 32) (h : RunLeft a n d reqs s (k + 1)) :
    ∃ t, exec (decodePhase s.phase) s = .next t ∧ RunLeft a n d reqs t k := by
  cases hp : s.phase
  case bulk => exact runLeft_execBulk hspace hp h
  case tail => exact runLeft_execTail hspace hp h
  case tmix =>
    obtain ⟨hecode, hhash, hreqs, hk⟩ := (runLeft_tmix_iff hp).1 h
    exact ⟨_, rfl, (runLeft_lmix_iff rfl).2 ⟨hecode, hhash, hreqs, by omega⟩⟩
  case lmix =>
    obtain ⟨hecode, hhash, hreqs, hk⟩ := (runLeft_lmix_iff hp).1 h
    exact ⟨_, rfl, (runLeft_aval_iff rfl).2 ⟨hecode, hhash, hreqs, by omega⟩⟩
  case aval =>
    obtain ⟨hecode, hhash, hreqs, hk⟩ := (runLeft_aval_iff hp).1 h
    exact ⟨_, rfl, (runLeft_done_iff rfl).2 ⟨hecode, hhash, hreqs, by omega⟩⟩
  case idle | done | fault =>
    have hb := busy_of_runLeft h
    rw [hp] at hb
    cases hb

/-! ### The other turns -/

/-- While busy a host operation writes an operand register or what a host read returns at most (R133, R139). -/
theorem exec_host_busy_frame {i : Instr} {t : State} (hrow : hostRow i = true) (hb : busy s.phase = true)
    (h : exec i s = .next t) :
    t = { s with seed := t.seed, len := t.len, addr := t.addr, rdata := t.rdata, draws := t.draws } := by
  have hstart : startCommand s = s := if_pos hb
  rcases exec_host s hrow with he | ⟨w, he⟩ | ⟨w, he⟩ | ⟨w, he⟩ | ⟨w, he⟩ | ⟨-, -, he⟩ | ⟨-, he⟩ <;>
    rw [he] at h <;> cases h
  any_goals rfl
  rw [hstart]

theorem runLeft_exec_host {i : Instr} (hrow : hostRow i = true) (h : RunLeft a n d reqs s (k + 1)) :
    ∃ t, exec i s = .next t ∧ RunLeft a n d reqs t (k + 1) ∧ t.inputs = s.inputs := by
  obtain ⟨t, ht⟩ := exec_host_completes s hrow
  refine ⟨t, ht, ?_⟩
  rw [exec_host_busy_frame hrow (busy_of_runLeft h) ht]
  exact ⟨h, rfl⟩

theorem runLeft_unmatchedAccess (x : Access) (h : RunLeft a n d reqs s k) :
    RunLeft a n d reqs (unmatchedAccess x s) k := by
  unfold unmatchedAccess
  split <;> exact h

theorem unmatchedAccess_inputs (x : Access) (s : State) : (unmatchedAccess x s).inputs = s.inputs := by
  unfold unmatchedAccess
  split <;> rfl

/-- A change of memory outside the buffer is not seen by the reads to come (P3). -/
theorem bytesLeft_changeMemory {x : Word} (v : Option Byte) (hx : x.toNat < a ∨ a + n ≤ x.toNat) {y : List Byte}
    (h : BytesLeft a n s y) : BytesLeft a n (changeMemory x v s) y := by
  obtain ⟨hrem, hinside, hbuf⟩ := h
  refine ⟨hrem, hinside, fun i hi => ?_⟩
  have hin := hinside (by omega)
  rw [changeMemory_mem, changeMemory_ptr, Memory.read_set_other _ _ (by omega), hbuf i hi]

theorem runLeft_changeMemory {x : Word} (v : Option Byte) (hx : x.toNat < a ∨ a + n ≤ x.toNat)
    (h : RunLeft a n d reqs s k) : RunLeft a n d reqs (changeMemory x v s) k := by
  cases hp : s.phase
  case bulk =>
    obtain ⟨hecode, y, hleft, hends⟩ := (runLeft_bulk_iff hp).1 h
    exact (runLeft_bulk_iff (s := changeMemory x v s) hp).2 ⟨hecode, y, bytesLeft_changeMemory v hx hleft, hends⟩
  case tail =>
    obtain ⟨hecode, y, hleft, hends⟩ := (runLeft_tail_iff hp).1 h
    exact (runLeft_tail_iff (s := changeMemory x v s) hp).2 ⟨hecode, y, bytesLeft_changeMemory v hx hleft, hends⟩
  -- the other phases say nothing of memory
  all_goals
    simp only [RunLeft, changeMemory_phase, hp] at h ⊢
    exact h

/-! ### One turn, and all of them -/

theorem runLeft_step_sequencer (hspace : a + n ≤ 2 ^ 32) {es : List Event} (hin : s.inputs = .sequencer :: es)
    (h : RunLeft a n d reqs s (k + 1)) : ∃ t, step s = .next t ∧ RunLeft a n d reqs t k ∧ t.inputs = es := by
  obtain ⟨t, ht, hrun⟩ := runLeft_exec_decodePhase (s := s.take es) hspace h
  refine ⟨t, (step_sequencer hin).trans ht, hrun, ?_⟩
  rw [exec_sequencer_frame (hostRow_decodePhase _) ht, State.take_inputs]

/-- A turn that is not the sequencer's and leaves the run alone takes none of its turns (R152 (4)). -/
theorem runLeft_step_other {e : Event} {es : List Event} (hin : s.inputs = e :: es) (he : e ≠ .sequencer)
    (halone : leavesRunAlone a n e = true) (h : RunLeft a n d reqs s (k + 1)) :
    ∃ t, step s = .next t ∧ RunLeft a n d reqs t (k + 1) ∧ t.inputs = es := by
  cases e with
  | sequencer => exact absurd rfl he
  | host x =>
    cases hx : decodeAccess s.regBase x with
    | instr i =>
      rw [step_host hin hx]
      exact runLeft_exec_host (s := s.take es) (decodeAccess_hostRow hx) h
    | rejected r =>
      exact ⟨_, step_unmatched hin hx, runLeft_unmatchedAccess x (s := s.take es) h, unmatchedAccess_inputs x _⟩
  | command w =>
    rw [step_command hin]
    exact runLeft_exec_host (s := s.take es) (decodeCtrl_hostRow w) h
  | reset => cases halone
  | memory x v =>
    have hx : x.toNat < a ∨ a + n ≤ x.toNat := by simpa [leavesRunAlone] using halone
    exact ⟨_, step_memory hin, runLeft_changeMemory v hx (s := s.take es) h, rfl⟩

/-- Turns that end with the sequencer's hold one of its turns. -/
theorem count_sequencer_pos {e : Event} {es : List Event} (hlast : ∀ x ∈ (e :: es).getLast?, x = .sequencer) :
    0 < (e :: es).count .sequencer := by
  have hmem := List.getLast_mem (List.cons_ne_nil e es)
  rw [hlast _ (List.getLast?_eq_some_getLast _)] at hmem
  exact List.count_pos_iff.2 hmem

/-- The turns of a run, `k` of them the sequencer's, take it to its end. -/
theorem runLeft_runSteps (hspace : a + n ≤ 2 ^ 32) (es rest : List Event) (hin : s.inputs = es ++ rest)
    (halone : ∀ e ∈ es, leavesRunAlone a n e = true) (hcount : es.count .sequencer = k)
    (hlast : ∀ e ∈ es.getLast?, e = .sequencer) (h : RunLeft a n d reqs s k) :
    ∃ t, runSteps es.length s = .next t ∧ RunLeft a n d reqs t 0 ∧ t.inputs = rest := by
  induction es generalizing s k with
  | nil =>
    subst hcount
    exact ⟨s, rfl, h, hin⟩
  | cons e es ih =>
    rw [List.forall_mem_cons] at halone
    have hlast' : ∀ x ∈ es.getLast?, x = .sequencer := fun x hx => hlast x (List.mem_getLast?_cons hx)
    obtain ⟨j, rfl⟩ := Nat.exists_eq_succ_of_ne_zero (hcount ▸ (count_sequencer_pos hlast).ne')
    by_cases he : e = .sequencer
    · subst he
      rw [List.count_cons_self] at hcount
      obtain ⟨t, hstep, hrun, hin'⟩ := runLeft_step_sequencer hspace hin h
      rw [List.length_cons, runSteps_succ _ hstep]
      exact ih hin' halone.2 (Nat.succ.inj hcount) hlast' hrun
    · rw [List.count_cons_of_ne he] at hcount
      obtain ⟨t, hstep, hrun, hin'⟩ := runLeft_step_other hin he halone.1 h
      rw [List.length_cons, runSteps_succ _ hstep]
      exact ih hin' halone.2 hcount hlast' hrun

/-! ### From START to the end of the run -/

/-- START, with operands that pass the range test, begins the run on the bytes at ADDR (R138). -/
theorem runLeft_beginRun {b : List Byte} (hlen : s.len.toNat = b.length) (hbuf : BufferAt s.mem s.addr.toNat b) :
    RunLeft s.addr.toNat b.length (refHash s.byteOrder b s.seed) (s.requests ++ footprint s.addr.toNat b.length)
      (beginRun s) (b.length / 4 + 5) := by
  have hl : s.len = BitVec.ofNat 32 b.length := by rw [← hlen, BitVec.ofNat_toNat, BitVec.setWidth_eq]
  refine (runLeft_bulk_iff rfl).2 ⟨rfl, b, ⟨hlen, fun _ => ⟨le_refl _, le_refl _⟩, hbuf⟩, ⟨?_, rfl⟩, rfl⟩
  rw [← hashFrom_seed, ← hl]
  rfl

end

/-- A START in a hold state and the turns of a run take the engine to DONE, with Hash of the operands in DIGEST, however
the turns interleave (R152). -/
theorem interleavedRun_done {s : State} {b : List Byte} {w : Word} {es rest : List Event} (hb : busy s.phase = false)
    (hin : s.inputs = .command w :: (es ++ rest)) (hw : w.getLsbD 0 = true) (hlen : s.len.toNat = b.length)
    (hspace : s.addr.toNat + b.length ≤ 2 ^ 32) (hbuf : BufferAt s.mem s.addr.toNat b)
    (hturns : RunTurns s.addr.toNat b.length es) :
    ∃ t, runSteps (1 + es.length) s = .next t ∧ t.phase = .done ∧ t.ecode = 0#4 ∧
      t.digest = refHash s.byteOrder b s.seed ∧ t.requests = s.requests ++ footprint s.addr.toNat b.length ∧
      t.inputs = rest := by
  obtain ⟨halone, hcount, hlast⟩ := hturns
  have hstart : startCommand (s.take (es ++ rest)) = beginRun (s.take (es ++ rest)) := by
    rw [startCommand, State.take_phase, hb, if_neg Bool.false_ne_true]
    exact if_pos (rangeOk_eq_true.2 (hlen ▸ hspace))
  have hstep : step s = .next (beginRun (s.take (es ++ rest))) := by
    rw [step_command hin, decodeCtrl_of_bit0_set hw, ← hstart]
    rfl
  obtain ⟨t, ht, hrun, hrest⟩ := runLeft_runSteps hspace es rest rfl halone hcount
    (fun e he => Option.some.inj (he.symm.trans hlast)) (runLeft_beginRun (s := s.take (es ++ rest)) hlen hbuf)
  obtain ⟨hp, hecode, hdigest, hreqs⟩ := runLeft_zero_iff.1 hrun
  exact ⟨t, by rw [Nat.add_comm, runSteps_succ _ hstep, ht], hp, hecode, hdigest, hreqs, hrest⟩

end Sys2Proof.Machine
end

section
/-! The host's script HASH (O53): its lines up to START write the operands, the run ends in DONE, and the two reads return
STATUS and DIGEST. -/

namespace Sys2Proof.Machine

/-- A host's turn performs the operation its HOST word decodes to (R71, R72). -/
theorem step_hostWord {s : State} {header : BitVec 6} {w : Word} {rest : List Event} {i : Instr}
    (hin : s.inputs = .host (accessOf s.regBase header w) :: rest) (hi : decode (.host header w) = .instr i) :
    step s = exec i (s.take rest) :=
  step_host hin ((decodeAccess_accessOf ..).trans hi)

/-- The lines of the call before its START write the three operand registers (R83). -/
theorem runSteps_hashCall {s : State} {a n seed : Word} {rest : List Event}
    (hin : s.inputs = hashCall s.regBase a n seed ++ rest) :
    runSteps 3 s = .next { s with seed := seed, len := n, addr := a, inputs := startLine :: rest } := by
  rw [runSteps_succ _ (step_hostWord (header := 0x20#6) hin rfl),
    runSteps_succ _ (step_hostWord (header := 0x24#6) rfl rfl),
    runSteps_succ _ (step_hostWord (header := 0x28#6) rfl rfl)]
  rfl

theorem step_rdStatus {s : State} {rest : List Event} (hin : s.inputs = rdLine s.regBase .status :: rest) :
    step s = .next ((s.take rest).returnWord (statusWord s.phase s.ecode)) :=
  step_hostWord (header := 0x10#6) hin rfl

/-- In DONE the word RD DIGEST returns is DIGEST (R144). -/
theorem step_rdDigest_done {s : State} {rest : List Event} (hin : s.inputs = rdLine s.regBase .digest :: rest)
    (hp : s.phase = .done) : step s = .next ((s.take rest).returnWord s.digest) := by
  rw [step_hostWord (header := 0x14#6) hin rfl]
  exact congrArg Host.Outcome.next (if_pos hp)

/-- BUSY, ERR and ECODE are clear in DONE (R33). -/
theorem statusWord_done : statusWord .done 0#4 = 0x00000002#32 := by
  decide

/-- In DONE the poll of the call reads 2 and its last line DIGEST (R83, R142, R144). -/
theorem runSteps_reads_done {s : State} (hp : s.phase = .done) (hecode : s.ecode = 0#4)
    (hin : s.inputs = [rdLine s.regBase .status, rdLine s.regBase .digest]) :
    (∃ t, runSteps 1 s = .next t ∧ t.rdata = 0x00000002#32) ∧
    ∃ t, runSteps 2 s = .next t ∧ t.rdata = s.digest ∧ t.inputs = [] := by
  have hstatus := step_rdStatus hin
  rw [hp, hecode, statusWord_done] at hstatus
  have hdigest : step ((s.take [rdLine s.regBase .digest]).returnWord 0x00000002#32) = _ :=
    step_rdDigest_done rfl hp
  exact ⟨⟨_, runSteps_succ 0 hstatus, rfl⟩,
    ⟨_, (runSteps_succ 1 hstatus).trans (runSteps_succ 0 hdigest), rfl, rfl⟩⟩

theorem runSteps_regBase {k : Nat} {s t : State} (h : runSteps k s = .next t) : t.regBase = s.regBase := by
  induction k generalizing s with
  | zero =>
    cases h
    rfl
  | succ k ih =>
    cases hstep : step s with
    | next s' =>
      rw [runSteps_succ _ hstep] at h
      rw [ih h, step_regBase hstep]
    | fault r => simp [runSteps, hstep] at h
    | refused r => simp [runSteps, hstep] at h

/-- Settles O53: the run ends in DONE with ECODE 0, where STATUS is 2 and the read of DIGEST returns it. -/
theorem theHashCallReturnsHash : Obligations.TheHashCallReturnsHash := by
  unfold Obligations.TheHashCallReturnsHash
  intro s b a n seed es hhold hlen hspace hbuf hturns hin
  have hwrites := runSteps_hashCall hin
  obtain ⟨t, ht, hp, hecode, hdigest, -, hreads⟩ := interleavedRun_done (w := 0x00000001#32)
    (s := { s with seed := seed, len := n, addr := a, inputs := startLine :: (es ++ _) })
    (busy_eq_false.2 hhold) rfl rfl hlen hspace hbuf hturns
  have hrun : runSteps (4 + es.length) s = .next t := by
    rw [show 4 + es.length = 3 + (1 + es.length) by omega, runSteps_add hwrites, ht]
  rw [← runSteps_regBase hrun] at hreads
  rw [runSteps_add hrun, runSteps_add hrun, ← hdigest]
  exact runSteps_reads_done hp hecode hreads

end Sys2Proof.Machine
end

section
/-! The datapath functions are bijections (O25), and MIX is its five steps (O21). -/

namespace Sys2Proof.Machine

/-! ### The product by the multiplier -/

/-- The inverse of `multiplier` modulo 2^32 (R96). -/
def multiplierInverse : Word := 0xe59b19bd#32

theorem mul_multiplier_mul_inverse (a : Word) : a * multiplier * multiplierInverse = a := by
  have hone : multiplier * multiplierInverse = 1 := by decide
  rw [mul_assoc, hone, mul_one]

theorem mul_multiplier_bijective : Function.Bijective fun a : Word => a * multiplier :=
  (Function.LeftInverse.injective (g := (· * multiplierInverse)) mul_multiplier_mul_inverse).bijective_of_finite

theorem multiplier_toNat : multiplier.toNat = 0x5bd1e995 := by decide

/-- A product taken modulo 2^32 in the naturals is the product of words. -/
theorem eq_mul_multiplier_iff {a b : Word} :
    b = a * multiplier ↔ b.toNat = a.toNat * 0x5bd1e995 % 2 ^ 32 := by
  rw [← BitVec.toNat_inj, BitVec.toNat_mul, multiplier_toNat]

/-! ### The xor-shift -/

/-- The xor-shift is linear. -/
theorem xorShift_xor (a b : Word) (n : Nat) :
    xorShift (a ^^^ b) n = xorShift a n ^^^ xorShift b n := by
  unfold xorShift
  rw [BitVec.ushiftRight_xor_distrib]
  ac_rfl

/-- A shift by one place or more lessens every word but 0, so only 0 equals its own shift. -/
theorem xorShift_eq_zero {a : Word} {n : Nat} (hn : 1 ≤ n) (h : xorShift a n = 0#32) : a = 0#32 := by
  have hfix : a = a >>> n := BitVec.xor_eq_zero_iff.1 h
  have hdiv : a.toNat / 2 ^ n = a.toNat := by
    rw [← Nat.shiftRight_eq_div_pow, ← BitVec.toNat_ushiftRight, ← hfix]
  have hpow : 2 ^ n ≠ 1 := (Nat.one_lt_two_pow (by omega)).ne'
  exact BitVec.eq_of_toNat_eq ((Nat.div_eq_self.1 hdiv).resolve_right hpow)

theorem xorShift_bijective {n : Nat} (hn : 1 ≤ n) : Function.Bijective fun a => xorShift a n := by
  refine Function.Injective.bijective_of_finite fun a b (h : xorShift a n = xorShift b n) => ?_
  refine BitVec.xor_eq_zero_iff.1 (xorShift_eq_zero hn ?_)
  rw [xorShift_xor, h, BitVec.xor_self]

/-! ### MIXK, MIXH and FMIX -/

theorem mixK_bijective : Function.Bijective mixK :=
  mul_multiplier_bijective.comp ((xorShift_bijective (by decide)).comp mul_multiplier_bijective)

theorem mixH_bijective_accumulator (k : Word) : Function.Bijective fun h => mixH h k :=
  Function.Injective.bijective_of_finite fun _ _ heq =>
    mul_multiplier_bijective.injective ((BitVec.xor_left_inj (mixK k)).1 heq)

theorem mixH_bijective_key (h : Word) : Function.Bijective fun k => mixH h k :=
  Function.Injective.bijective_of_finite fun _ _ heq =>
    mixK_bijective.injective ((BitVec.xor_right_inj (h * multiplier)).1 heq)

theorem fmix_bijective : Function.Bijective fmix :=
  (xorShift_bijective (by decide)).comp
    (mul_multiplier_bijective.comp (xorShift_bijective (by decide)))

/-- Settles O25: the product has an inverse, the xor-shift is linear with kernel 0, and the rest are composed of
the two. -/
theorem mixAndFmixAreBijections : Obligations.MixAndFmixAreBijections := by
  unfold Obligations.MixAndFmixAreBijections
  exact ⟨mul_multiplier_mul_inverse, mul_multiplier_bijective, fun _ hn _ => xorShift_bijective hn,
    mixK_bijective, mixH_bijective_accumulator, mixH_bijective_key, fmix_bijective⟩

/-- Settles O21: each product modulo 2^32 is the product of words, after which the steps are MIX's own. -/
theorem mixIsTheFiveSteps : Obligations.MixIsTheFiveSteps := by
  unfold Obligations.MixIsTheFiveSteps
  intro h k k1 k2 k3 h1 hk1 hk2 hk3 hh1
  obtain rfl := eq_mul_multiplier_iff.2 hk1
  obtain rfl := hk2
  obtain rfl := eq_mul_multiplier_iff.2 hk3
  obtain rfl := eq_mul_multiplier_iff.2 hh1
  exact ⟨rfl, rfl, rfl⟩

end Sys2Proof.Machine
end

section
/-! BULK (O30) and the bulk loop of an undisturbed run (O50): one consuming step takes the next bulk word of the buffer. -/

namespace Sys2Proof.Machine

/-! ### The three outcomes of BULK -/

theorem execBulk_exits {s : State} (hrem : s.rem.toNat < 4) : execBulk s = .next { s with phase := .tail } :=
  if_neg (by omega)

theorem execBulk_consumes {s : State} {b : List Byte} (hrem : 4 ≤ s.rem.toNat) (hspace : s.ptr.toNat + 4 ≤ spaceSize)
    (hb : readBytes s.mem s.ptr.toNat 4 = some b) :
    execBulk s = .next (consumeWord b (s.logRead (busRead s.mem s.ptr.toNat 4))) := by
  rw [execBulk, if_pos hrem, bulkConsume, if_neg (by omega)]
  simp only [busRead_answer, hb]

theorem execBulk_refused {s : State} (hrem : 4 ≤ s.rem.toNat) (hspace : s.ptr.toNat + 4 ≤ spaceSize)
    (hb : readBytes s.mem s.ptr.toNat 4 = none) :
    execBulk s = .next (enterFault .iaRead (s.logRead (busRead s.mem s.ptr.toNat 4))) := by
  rw [execBulk, if_pos hrem, bulkConsume, if_neg (by omega)]
  simp only [busRead_answer, hb]

/-- Settles O30: one lemma for each outcome of BULK, its writes written out. -/
theorem bulkConsumesAWordOrExits : Obligations.BulkConsumesAWordOrExits := by
  unfold Obligations.BulkConsumesAWordOrExits
  refine ⟨rfl, fun s => ⟨fun hrem => execBulk_exits hrem, fun hrem hspace => ⟨fun b hb => ?_, fun hb => ?_⟩⟩⟩
  · have h := execBulk_consumes hrem hspace hb
    rw [consumeWord, mix, State.logRead, busRead, hb] at h
    exact h
  · have h := execBulk_refused hrem hspace hb
    rw [enterFault, State.logRead, busRead, hb] at h
    exact h

/-! ### The loop -/

/-- A START listed in a hold state, with operands that pass the range test, begins the run (R138). -/
theorem step_start {s : State} {w : Word} {rest : List Event} (hb : busy s.phase = false)
    (hin : s.inputs = .command w :: rest) (hw : w.getLsbD 0 = true) (hrange : rangeOk s.addr s.len = true) :
    step s = .next (beginRun (s.take rest)) := by
  have hstart : startCommand (s.take rest) = beginRun (s.take rest) := by
    rcases startCommand_cases (s.take rest) with ⟨hbusy, -⟩ | ⟨-, -, h⟩ | ⟨-, hfail, -⟩
    · cases hb.symm.trans hbusy
    · exact h
    · cases hrange.symm.trans hfail
  rw [step_command hin, decodeCtrl_of_bit0_set hw, ← hstart]
  rfl

/-- In `t` the run that START began in `s` on the bytes `b` has consumed `j` bulk words, and no turn is listed. -/
structure WordsConsumed (s : State) (b : List Byte) (j : Nat) (t : State) : Prop where
  phase : t.phase = .bulk
  inputs : t.inputs = []
  byteOrder : t.byteOrder = s.byteOrder
  left : BytesLeft s.addr.toNat b.length t (b.drop (4 * j))
  h : t.h = hashBulk s.byteOrder b s.seed j
  ptr : t.ptr = s.addr + BitVec.ofNat 32 (4 * j)
  l : t.l = s.len

section
variable {s : State} {b : List Byte}

/-- No word is consumed when the run begins (R138). -/
theorem wordsConsumed_beginRun (hlen : s.len.toNat = b.length) (hbuf : BufferAt s.mem s.addr.toNat b) :
    WordsConsumed s b 0 (beginRun (s.take [])) where
  phase := rfl
  inputs := rfl
  byteOrder := rfl
  left := ⟨hlen, fun _ => ⟨le_refl _, le_refl _⟩, hbuf⟩
  h := rfl
  ptr := (BitVec.add_zero s.addr).symm
  l := rfl

/-- With a complete word left, the sequencer's turn consumes it (R100). -/
theorem wordsConsumed_step {t : State} {j : Nat} (hspace : s.addr.toNat + b.length ≤ 2 ^ 32)
    (hj : 4 * (j + 1) ≤ b.length) (ht : WordsConsumed s b j t) :
    ∃ t', step t = .next t' ∧ WordsConsumed s b (j + 1) t' := by
  have hy : 4 ≤ (b.drop (4 * j)).length := by
    rw [List.length_drop]
    omega
  obtain ⟨hrem, hinside, hbuf⟩ := ht.left
  have hin := hinside (by omega)
  have hstep : step t = execBulk t := by
    rw [step_nil ht.inputs, ht.phase]
    rfl
  have hexec := execBulk_of_bufferAt (by omega) (show t.ptr.toNat + 4 ≤ 4294967296 by omega) hbuf hy
  refine ⟨_, hstep.trans hexec, {
    phase := consumeWord_phase ..
    inputs := by rw [consumeWord_inputs, State.logRead_inputs, ht.inputs]
    byteOrder := by rw [consumeWord_byteOrder, State.logRead_byteOrder, ht.byteOrder]
    left := ?_
    h := ?_
    ptr := ?_
    l := by rw [consumeWord_l, State.logRead_l, ht.l] }⟩
  · rw [Nat.mul_succ, ← List.drop_drop]
    exact bytesLeft_consumeWord hspace _ hy ht.left
  · rw [consumeWord_h, mix_fst, State.logRead_h, State.logRead_byteOrder, ht.h, ht.byteOrder, hashBulk, bulkBytes]
  · rw [consumeWord_ptr, State.logRead_ptr, ht.ptr, Nat.mul_succ, BitVec.ofNat_add, BitVec.add_assoc]
    rfl

/-- START and `j` sequencer's turns consume `j` bulk words, as long as the buffer has them (R101). -/
theorem wordsConsumed_runSteps {w : Word} (hb : busy s.phase = false) (hin : s.inputs = [.command w])
    (hw : w.getLsbD 0 = true) (hlen : s.len.toNat = b.length) (hspace : s.addr.toNat + b.length ≤ 2 ^ 32)
    (hbuf : BufferAt s.mem s.addr.toNat b) (j : Nat) (hj : 4 * j ≤ b.length) :
    ∃ t, runSteps (1 + j) s = .next t ∧ WordsConsumed s b j t := by
  induction j with
  | zero =>
    have hstep := step_start hb hin hw (rangeOk_eq_true.2 (hlen ▸ hspace))
    exact ⟨_, runSteps_succ 0 hstep, wordsConsumed_beginRun hlen hbuf⟩
  | succ j ih =>
    obtain ⟨t, hrun, ht⟩ := ih (by omega)
    obtain ⟨t', hstep, ht'⟩ := wordsConsumed_step hspace hj ht
    exact ⟨t', (runSteps_add hrun).trans (runSteps_succ 0 hstep), ht'⟩

end

/-- Settles O50, by induction on the words consumed, with the bytes still to be read in the invariant. -/
theorem bulkLoopInvariant : Obligations.BulkLoopInvariant := by
  unfold Obligations.BulkLoopInvariant
  intro s b w j hhold hin hw hlen hspace hbuf hj
  obtain ⟨t, hrun, ht⟩ :=
    wordsConsumed_runSteps (busy_eq_false.2 hhold) hin hw hlen hspace hbuf j (by omega)
  obtain ⟨hrem, -⟩ := ht.left
  refine ⟨t, hrun, ht.phase, ht.h, ?_, ?_, ht.l⟩
  · rw [ht.ptr, BitVec.toNat_add, BitVec.toNat_ofNat, Nat.add_mod_mod]
  · rw [hrem, List.length_drop]

end Sys2Proof.Machine
end

section
/-! TAIL (O32, O33) and the tail word it packs (O24). -/

namespace Sys2Proof.Machine

/-! ### The tail word -/

theorem byteAt_toNat (y : List Byte) (i : Nat) : (byteAt y i).toNat = (y.getD i 0).toNat := by
  rw [byteAt, BitVec.toNat_setWidth, Nat.mod_eq_of_lt (by omega)]

/-- With the bits below the next lane clear in `t`, the lane at `offset` is added: no bit of the xor meets another. -/
theorem tailLane_toNat {t : Word} {offset : Nat} (y : List Byte) (i : Nat) (ho : offset ≤ 2)
    (ht : 2 ^ (8 * offset + 8) ∣ t.toNat) :
    (tailLane t offset (byteAt y i)).toNat = t.toNat + 2 ^ (8 * offset) * (y.getD i 0).toNat := by
  have hlane : 2 ^ (8 * offset) * (y.getD i 0).toNat < 2 ^ (8 * offset + 8) := by
    rw [Nat.pow_add]
    exact Nat.mul_lt_mul_of_pos_left (y.getD i 0).isLt (Nat.two_pow_pos _)
  have hword : 2 ^ (8 * offset + 8) ≤ 2 ^ 32 := Nat.pow_le_pow_right (by decide) (by omega)
  obtain ⟨u, hu⟩ := ht
  rw [tailLane, BitVec.toNat_xor, BitVec.toNat_shiftLeft, byteAt_toNat, Nat.shiftLeft_eq, Nat.mul_comm,
    Nat.mod_eq_of_lt (hlane.trans_le hword), hu]
  generalize 2 ^ (8 * offset) * (y.getD i 0).toNat = lane at hlane
  rw [← Nat.div_add_mod (_ ^^^ lane) (2 ^ (8 * offset + 8)), Nat.xor_div_two_pow, Nat.xor_mod_two_pow,
    Nat.mul_div_cancel_left _ (Nat.two_pow_pos _), Nat.div_eq_of_lt hlane, Nat.mul_mod_right,
    Nat.mod_eq_of_lt hlane, Nat.xor_zero, Nat.zero_xor]

/-- Settles O24: from the highest lane down, each lane adds its byte's value. -/
theorem tailPackIsLeastSignificantByteFirst : Obligations.TailPackIsLeastSignificantByteFirst := by
  unfold Obligations.TailPackIsLeastSignificantByteFirst
  intro b0 b1 b2
  refine ⟨rfl, ?one, ?two, ?three⟩
  case one =>
    have h0 := tailLane_toNat (t := 0) (offset := 0) [b0] 0 (by decide) (by simp)
    simpa [tailPack] using h0
  case two =>
    have h1 := tailLane_toNat (t := 0) (offset := 1) [b0, b1] 1 (by decide) (by simp)
    have h0 := tailLane_toNat (offset := 0) [b0, b1] 0 (by decide) (by rw [h1]; simp)
    simp [tailPack] at h0 h1 ⊢
    omega
  case three =>
    have h2 := tailLane_toNat (t := 0) (offset := 2) [b0, b1, b2] 2 (by decide) (by simp)
    have h1 := tailLane_toNat (offset := 1) [b0, b1, b2] 1 (by decide) (by rw [h2]; simp)
    have h0 := tailLane_toNat (offset := 0) [b0, b1, b2] 0 (by decide) (by rw [h1, h2]; simp; omega)
    simp [tailPack] at h0 h1 h2 ⊢
    omega

/-! ### The reads of TAIL -/

/-- Settles O32: the rule of TAIL at a readable buffer. -/
theorem tailPacksTheRemainingBytes : Obligations.TailPacksTheRemainingBytes := by
  unfold Obligations.TailPacksTheRemainingBytes
  intro s y hrem hshort hspace hbuf
  exact execTail_of_bufferAt hrem (Nat.lt_succ_of_le hshort) hspace hbuf

/-- `s` with the tail requests of the offsets from REM - 1 down to `offset` recorded (R111, R56). -/
def State.askedDownTo (s : State) (offset : Nat) : State :=
  { s with
    reads := s.reads ++ ((List.range s.rem.toNat).reverse.take (s.rem.toNat - offset)).map
      (fun i => busRead s.mem (s.ptr.toNat + i) 1) }

section
variable {s : State} {j offset : Nat}

@[simp] theorem askedDownTo_rem : (s.askedDownTo offset).rem = s.rem := rfl
@[simp] theorem askedDownTo_ptr : (s.askedDownTo offset).ptr = s.ptr := rfl
@[simp] theorem askedDownTo_mem : (s.askedDownTo offset).mem = s.mem := rfl

theorem askedDownTo_of_rem_le (h : s.rem.toNat ≤ offset) : s.askedDownTo offset = s := by
  simp [State.askedDownTo, Nat.sub_eq_zero_of_le h]

/-- The request at `offset` comes right after those of the higher offsets. -/
theorem askedDownTo_of_lt_rem (h : offset < s.rem.toNat) :
    s.askedDownTo offset =
      (s.askedDownTo (offset + 1)).logRead (busRead s.mem (s.ptr.toNat + offset) 1) := by
  have hcount : s.rem.toNat - offset = s.rem.toNat - (offset + 1) + 1 := by omega
  have hlast : s.rem.toNat - 1 - (s.rem.toNat - (offset + 1)) = offset := by omega
  rw [State.askedDownTo, hcount, List.take_succ_eq_append_getElem (by simp; omega)]
  simp [State.askedDownTo, State.logRead, hlast]

/-- At an offset below REM, TAIL makes the next request, and packs its byte or ends in the refusal (R111, R175). -/
theorem tailByte_asks (hspace : s.ptr.toNat + s.rem.toNat ≤ 2 ^ 32) (h : offset < s.rem.toNat) (t : Word) :
    (s.mem.read (s.ptr.toNat + offset) ≠ none ∧
      ∃ t', tailByte offset (.packed t (s.askedDownTo (offset + 1))) = .packed t' (s.askedDownTo offset)) ∨
    (s.mem.read (s.ptr.toNat + offset) = none ∧
      tailByte offset (.packed t (s.askedDownTo (offset + 1))) = .refused (s.askedDownTo offset)) := by
  have haddr : (s.ptr + BitVec.ofNat 32 offset).toNat = s.ptr.toNat + offset := by
    rw [BitVec.toNat_add, BitVec.toNat_ofNat, Nat.add_mod_mod, Nat.mod_eq_of_lt (by omega)]
  have hcases := (tailByte_cases offset (.packed t (s.askedDownTo (offset + 1)))).2 _ _ rfl
  simp only [askedDownTo_rem, askedDownTo_ptr, askedDownTo_mem, haddr, readBytes_one,
    ← askedDownTo_of_lt_rem h] at hcases
  rcases hcases with ⟨hle, -⟩ | ⟨-, ⟨b, hb, he⟩ | ⟨hb, he⟩⟩
  · omega
  · exact .inl ⟨fun hnone => by simp [hnone] at hb, _, he⟩
  · exact .inr ⟨Option.map_eq_none_iff.1 hb, he⟩

/-- Where TAIL stands once it has passed the offsets down to `offset`, its first refused read being at offset `j`. -/
structure TailStep.StandsAt (s : State) (j offset : Nat) (x : TailStep) : Prop where
  refused : offset ≤ j → x = .refused (s.askedDownTo j)
  packed : j < offset → ∃ t, x = .packed t (s.askedDownTo offset)

theorem standsAt_start (hj : j < offset) (hrem : s.rem.toNat ≤ offset) :
    (TailStep.packed 0 s).StandsAt s j offset where
  refused h := absurd h (by omega)
  packed _ := ⟨0, by rw [askedDownTo_of_rem_le hrem]⟩

/-- One read of TAIL moves it to the next lower offset: on in the refusal, past an offset outside REM, past a readable
byte, or into the refusal at `j` (R111, R175). -/
theorem standsAt_tailByte {x : TailStep} (hspace : s.ptr.toNat + s.rem.toNat ≤ 2 ^ 32) (hj : j < s.rem.toNat)
    (hnone : s.mem.read (s.ptr.toNat + j) = none)
    (hsome : ∀ i, j < i → i < s.rem.toNat → s.mem.read (s.ptr.toNat + i) ≠ none)
    (hx : x.StandsAt s j (offset + 1)) : (tailByte offset x).StandsAt s j offset := by
  by_cases hpast : offset < j
  · obtain rfl := hx.refused hpast
    exact ⟨fun _ => rfl, fun h => absurd h (by omega)⟩
  obtain ⟨t, rfl⟩ := hx.packed (by omega)
  by_cases hrem : s.rem.toNat ≤ offset
  · rw [askedDownTo_of_rem_le (by omega), tailByte, if_neg (by omega)]
    exact ⟨fun h => absurd h (by omega), fun _ => ⟨t, by rw [askedDownTo_of_rem_le hrem]⟩⟩
  rcases tailByte_asks hspace (Nat.lt_of_not_le hrem) t with ⟨hread, he⟩ | ⟨hread, he⟩
  · have hne : offset ≠ j := fun h => hread (h ▸ hnone)
    exact ⟨fun h => absurd h (by omega), fun _ => he⟩
  · obtain rfl : offset = j := by
      by_contra hne
      exact hsome offset (by omega) (by omega) hread
    exact ⟨fun _ => he, fun h => absurd h (by omega)⟩

end

/-- Settles O33: the refusal at offset `j` stands through the reads at offsets 2, 1 and 0. -/
theorem tailFaultsAtTheFirstRefusedRead : Obligations.TailFaultsAtTheFirstRefusedRead := by
  unfold Obligations.TailFaultsAtTheFirstRefusedRead
  intro s j hshort hspace hj hnone hsome
  have hstart : (TailStep.packed 0 s).StandsAt s j 3 := standsAt_start (by omega) hshort
  have hstep {offset : Nat} {x : TailStep} := standsAt_tailByte (x := x) (offset := offset) hspace hj hnone hsome
  have hend : tailReads s = .refused (s.askedDownTo j) := (hstep (hstep (hstep hstart))).refused (Nat.zero_le j)
  rw [exec, execTail, hend]
  rfl

end Sys2Proof.Machine
end

section
/-! The finishing operations and the hold states (O22, O35, O36, O37, O38). -/

namespace Sys2Proof.Machine

/-- Settles O22: the product modulo 2^32 is the product of words, after which the lines are FMIX's own. -/
theorem fmixIsTheThreeLines : Obligations.FmixIsTheThreeLines := by
  unfold Obligations.FmixIsTheThreeLines
  rintro h a b rfl hb
  obtain rfl := eq_mul_multiplier_iff.2 hb
  rfl

/-- Settles O35: the writes are those of `execTmix`. -/
theorem tmixFoldsTheTail : Obligations.TmixFoldsTheTail :=
  ⟨rfl, fun _ => rfl⟩

/-- Settles O36: the writes are those of `execLmix`. -/
theorem lmixFoldsTheLength : Obligations.LmixFoldsTheLength :=
  ⟨rfl, fun _ => rfl⟩

/-- Settles O38: the three hold operations answer the state they are given. -/
theorem holdStatesHaveNoEffect : Obligations.HoldStatesHaveNoEffect :=
  fun _ => ⟨rfl, rfl, rfl⟩

/-- The host's frame does not list DIGEST, and of the sequencer's operations only AVAL writes it (R123). -/
theorem exec_digest {i : Instr} {s t : State} (h : exec i s = .next t) (hi : i ≠ .aval) : t.digest = s.digest := by
  cases hrow : hostRow i with
  | true => rw [exec_host_frame hrow h]
  | false =>
    cases i
    case bulk =>
      rcases execBulk_next h with ⟨-, rfl⟩ | ⟨-, -, ⟨b, -, rfl⟩ | ⟨-, rfl⟩⟩
      · rfl
      · rw [consumeWord_digest, State.logRead_digest]
      · rfl
    case tail => rcases execTail_cases s with ⟨w, rs, ht⟩ | ⟨rs, ht⟩ <;> cases ht.symm.trans h <;> rfl
    case aval => exact absurd rfl hi
    case idle | tmix | lmix | done | fault =>
      cases h
      rfl
    all_goals cases hrow

/-- Settles O37: AVAL's writes are those of `execAval`, and `exec_digest` says the rest. -/
theorem avalDeliversTheDigest : Obligations.AvalDeliversTheDigest :=
  ⟨rfl, fun _ => rfl, fun _ _ _ => exec_digest⟩

end Sys2Proof.Machine
end

section
/-! The successor of PHASE at the sequencer's turn (O42). -/

namespace Sys2Proof.Machine

/-- At the sequencer's turn the step performs the operation PHASE selects, the turn taken from the list (R81). -/
theorem step_of_sequencersTurn {s : State} (h : sequencersTurn s = true) :
    step s = exec (decodePhase s.phase) (s.take s.inputs.tail) := by
  cases hin : s.inputs with
  | nil =>
    have hs : s.take [] = s := by rw [← hin]; rfl
    rw [step_nil hin, List.tail_nil, hs]
  | cons e rest =>
    obtain rfl : e = .sequencer := by simpa [sequencersTurn, hin] using h
    rw [step_sequencer hin, List.tail_cons]

/-- A refused read of several bytes has a refused byte after which every byte is readable. -/
theorem exists_last_refused {m : Memory} {a n : Nat} (h : readBytes m a n = none) :
    ∃ j, j < n ∧ m.read (a + j) = none ∧ ∀ i, j < i → i < n → m.read (a + i) ≠ none := by
  obtain ⟨i, hi, hnone⟩ := (readBytes_eq_none_iff m a n).1 h
  have hle : i ≤ n - 1 := by omega
  have hpred : n - 1 < n := by omega
  exact ⟨Nat.findGreatest (fun j => m.read (a + j) = none) (n - 1), (Nat.findGreatest_le _).trans_lt hpred,
    Nat.findGreatest_spec (P := fun j => m.read (a + j) = none) hle hnone,
    fun k hk hkn => Nat.findGreatest_is_greatest hk (Nat.le_sub_one_of_lt hkn)⟩

section
variable {s : State}

/-- TAIL with all its bytes readable goes on to TMIX (R111). -/
theorem execTail_packs (hshort : s.rem.toNat < 4) (hspace : s.ptr.toNat + s.rem.toNat ≤ 2 ^ 32) {y : List Byte}
    (hy : readBytes s.mem s.ptr.toNat s.rem.toNat = some y) : ∃ t, execTail s = .next t ∧ t.phase = .tmix := by
  obtain ⟨hlen, hbuf⟩ := (readBytes_eq_some_iff ..).1 hy
  rw [← hlen] at hshort hspace hbuf
  exact ⟨_, execTail_of_bufferAt hlen.symm hshort hspace hbuf, rfl⟩

/-- TAIL with a byte refused enters FAULT with IA_READ (R172). -/
theorem execTail_refuses (hshort : s.rem.toNat < 4) (hspace : s.ptr.toNat + s.rem.toNat ≤ 2 ^ 32)
    (hy : readBytes s.mem s.ptr.toNat s.rem.toNat = none) :
    ∃ t, execTail s = .next t ∧ t.phase = .fault ∧ t.ecode = 2#4 := by
  obtain ⟨j, hj, hnone, hsome⟩ := exists_last_refused hy
  exact ⟨_, tailFaultsAtTheFirstRefusedRead s j (by omega) hspace hj hnone hsome, rfl, rfl⟩

end

/-- Settles O42: by the phase, the invariant keeping the requests of BULK and TAIL inside the buffer space. -/
theorem sequencerMovesPhaseAsTabled : Obligations.SequencerMovesPhaseAsTabled := by
  unfold Obligations.SequencerMovesPhaseAsTabled
  intro s hi hturn
  rw [step_of_sequencersTurn hturn]
  cases hp : s.phase
  case bulk =>
    obtain ⟨-, -, hspace, -⟩ := (inv_bulk_iff hp).1 hi
    rcases Nat.lt_or_ge s.rem.toNat 4 with hrem | hrem
    · exact ⟨_, execBulk_exits (s := s.take _) hrem, by simp [Nat.not_le.2 hrem]⟩
    have hsum := hspace (by omega)
    have hword : s.ptr.toNat + 4 ≤ spaceSize := by
      rw [spaceSize]
      omega
    cases hb : readBytes s.mem s.ptr.toNat 4 with
    | some b => exact ⟨_, execBulk_consumes (s := s.take _) hrem hword hb, by simp [hrem]⟩
    | none => exact ⟨_, execBulk_refused (s := s.take _) hrem hword hb, by simp [hrem, causeCode]⟩
  case tail =>
    obtain ⟨-, -, hspace, -, hshort⟩ := (inv_tail_iff hp).1 hi
    have hsum : s.ptr.toNat + s.rem.toNat ≤ 2 ^ 32 := by omega
    cases hb : readBytes s.mem s.ptr.toNat s.rem.toNat with
    | some y =>
      obtain ⟨t, ht, htmix⟩ := execTail_packs (s := s.take s.inputs.tail) hshort hsum hb
      exact ⟨t, ht, by simp [htmix]⟩
    | none =>
      obtain ⟨t, ht, hfault⟩ := execTail_refuses (s := s.take s.inputs.tail) hshort hsum hb
      exact ⟨t, ht, by simp [hfault]⟩
  case tmix | lmix | aval => exact ⟨_, rfl, by simp⟩
  case idle | done | fault => exact ⟨_, rfl, by simp [hp]⟩

end Sys2Proof.Machine
end

section
/-! The hold states are left only by START and reset (O43). -/

namespace Sys2Proof.Machine

/-- A host operation that does not give START writes an operand register or what a host read returns at most. -/
theorem exec_host_noStart_frame {i : Instr} {s t : State} (hrow : hostRow i = true) (hstart : givesStart i = false)
    (h : exec i s = .next t) :
    t = { s with seed := t.seed, len := t.len, addr := t.addr, rdata := t.rdata, draws := t.draws } := by
  rcases exec_host s hrow with he | ⟨w, he⟩ | ⟨w, he⟩ | ⟨w, he⟩ | ⟨w, he⟩ | ⟨-, -, he⟩ | ⟨hgives, -⟩
  any_goals
    rw [he] at h
    cases h
    rfl
  rcases hgives with ⟨w, rfl⟩ | ⟨w, rfl, hw⟩
  · cases hstart
  · cases hw.symm.trans hstart

theorem givesStart_decodeCtrl (w : Word) : givesStart (decodeCtrl w) = w.getLsbD 0 := by
  cases hw : w.getLsbD 0
  · rw [decodeCtrl_of_bit0_clear hw]
    rfl
  · rw [decodeCtrl_of_bit0_set hw]
    rfl

/-- The turn of a decoded access or of a command gives START when its operation does. -/
theorem startGiven_host {s : State} {a : Access} {rest : List Event} {i : Instr} (hin : s.inputs = .host a :: rest)
    (ha : decodeAccess s.regBase a = .instr i) : startGiven s = givesStart i := by
  simp [startGiven, hin, ha]

theorem startGiven_command {s : State} {w : Word} {rest : List Event} (hin : s.inputs = .command w :: rest) :
    startGiven s = givesStart (decodeCtrl w) := by
  simp [startGiven, hin, givesStart_decodeCtrl]

/-- Of the state only what the host and the platform own differs: the operands, what a read returned, memory and the
turns to come. -/
def WorkingStateKept (s t : State) : Prop :=
  t = { s with
    seed := t.seed, len := t.len, addr := t.addr, rdata := t.rdata, draws := t.draws, mem := t.mem, inputs := t.inputs }

theorem workingStateKept_exec_host {i : Instr} (s : State) (rest : List Event) (hrow : hostRow i = true)
    (hstart : givesStart i = false) : ∃ t, exec i (s.take rest) = .next t ∧ WorkingStateKept s t := by
  obtain ⟨t, ht⟩ := exec_host_completes (s.take rest) hrow
  refine ⟨t, ht, ?_⟩
  rw [exec_host_noStart_frame hrow hstart ht]
  rfl

theorem workingStateKept_unmatchedAccess (a : Access) (s : State) (rest : List Event) :
    WorkingStateKept s (unmatchedAccess a (s.take rest)) := by
  unfold unmatchedAccess
  split <;> rfl

/-- In a hold state the operation PHASE selects changes nothing (R124, R126, R127). -/
theorem exec_decodePhase_hold {p : Phase} (hb : busy p = false) (s : State) : exec (decodePhase p) s = .next s := by
  rcases busy_eq_false.1 hb with rfl | rfl | rfl <;> rfl

theorem workingStateKept_step {s : State} (hb : busy s.phase = false) (hstart : startGiven s = false)
    (hreset : resetGiven s = false) : ∃ t, step s = .next t ∧ WorkingStateKept s t := by
  rcases step_cases s with ⟨-, hturn, -, -⟩ | ⟨e, rest, i, hin, hrow, hdec, he⟩ | ⟨a, rest, -, he⟩ | ⟨rest, hin, -⟩ |
    ⟨x, v, rest, -, he⟩
  · rw [step_of_sequencersTurn hturn, exec_decodePhase_hold hb]
    exact ⟨_, rfl, rfl⟩
  · rw [he]
    refine workingStateKept_exec_host s rest hrow ?_
    rcases hdec with ⟨a, rfl, ha⟩ | ⟨w, rfl, rfl⟩
    · rw [← startGiven_host hin ha, hstart]
    · rw [← startGiven_command hin, hstart]
  · exact ⟨_, he, workingStateKept_unmatchedAccess a s rest⟩
  · simp [resetGiven, hin] at hreset
  · exact ⟨_, he, rfl⟩

/-- Settles O43: each kind of turn but START and reset leaves the working state alone. -/
theorem holdStatesAreLeftOnlyByStartOrReset : Obligations.HoldStatesAreLeftOnlyByStartOrReset := by
  unfold Obligations.HoldStatesAreLeftOnlyByStartOrReset
  intro s hhold hstart hreset
  obtain ⟨t, ht, hkept⟩ := workingStateKept_step (busy_eq_false.2 hhold) hstart hreset
  refine ⟨t, ht, ?_⟩
  rw [hkept]
  exact ⟨rfl, rfl, rfl, rfl, rfl, rfl, rfl, rfl, rfl, rfl⟩

end Sys2Proof.Machine
end

section
/-! What the host's operations do (O7 to O10, O13), the five words of STATUS (O12), the START command in a hold state
and while busy (O17, O19), and what no host operation disturbs (O14, O15). -/

namespace Sys2Proof.Machine

/-! ### The two commands of a CTRL word -/

theorem execWrCtrl_of_bit0_set {w : Word} (h : w.getLsbD 0 = true) (s : State) :
    execWrCtrl w s = .next (startCommand s) :=
  congrArg Host.Outcome.next (if_pos h)

theorem execWrCtrl_of_bit0_clear {w : Word} (h : w.getLsbD 0 = false) (s : State) : execWrCtrl w s = .next s :=
  congrArg Host.Outcome.next (if_neg (Bool.eq_false_iff.1 h))

/-- A word with bit 0 set is the START command in either format that carries it (R73, R81). -/
theorem exec_of_decode_start {w : Word} {i : Instr} (hw : w.getLsbD 0 = true)
    (hdec : decode (.ctrl w) = .instr i ∨ decode (.host 0x2C#6 w) = .instr i) (s : State) :
    exec i s = .next (startCommand s) := by
  rcases hdec with hdec | hdec <;> cases hdec
  · rw [decodeCtrl_of_bit0_set hw]
    rfl
  · exact execWrCtrl_of_bit0_set hw s

theorem startCommand_busy {s : State} (hb : busy s.phase = true) : startCommand s = s := if_pos hb

theorem startCommand_accepted {s : State} (hb : busy s.phase = false) (hr : rangeOk s.addr s.len = true) :
    startCommand s = beginRun s := by
  rw [startCommand, if_neg (Bool.eq_false_iff.1 hb), if_pos hr]

theorem startCommand_outOfRange {s : State} (hb : busy s.phase = false) (hr : rangeOk s.addr s.len = false) :
    startCommand s = enterFault .iaRange s := by
  rw [startCommand, if_neg (Bool.eq_false_iff.1 hb), if_neg (Bool.eq_false_iff.1 hr)]

/-- Settles O17: the word is the START command, which the range test answers. -/
theorem acceptedStartBeginsARunOrTakesIaRange : Obligations.AcceptedStartBeginsARunOrTakesIaRange := by
  unfold Obligations.AcceptedStartBeginsARunOrTakesIaRange
  intro s w i hw hdec hhold
  have hb := busy_eq_false.2 hhold
  rw [exec_of_decode_start (bit0_set_of_and_one hw) hdec s]
  constructor
  · intro hfits
    rw [startCommand_accepted hb (rangeOk_eq_true.2 hfits)]
    rfl
  · intro hexceeds
    have hr : rangeOk s.addr s.len = false := by
      rw [Bool.eq_false_iff, Ne, rangeOk_eq_true]
      omega
    rw [startCommand_outOfRange hb hr]
    rfl

/-- Settles O19: the word is the START command, which is ignored while busy. -/
theorem startWhileBusyIsIgnored : Obligations.StartWhileBusyIsIgnored := by
  unfold Obligations.StartWhileBusyIsIgnored
  intro s w i hw hdec hbusy
  rw [exec_of_decode_start (bit0_set_of_and_one hw) hdec s, startCommand_busy (busy_eq_true.2 hbusy)]

/-! ### Reads and writes of the register block -/

/-- Settles O7: the tables of R72 and of the meanings, entry by entry. -/
theorem operandWritesChangeOneRegister : Obligations.OperandWritesChangeOneRegister :=
  fun _ _ => ⟨⟨rfl, rfl⟩, ⟨rfl, rfl⟩, rfl, rfl⟩

/-- Settles O8: the four writes and CTRL.NOP answer the state they are given, and so does WR.CTRL of a CTRL.NOP. -/
theorem ignoredWritesChangeNothing : Obligations.IgnoredWritesChangeNothing := by
  unfold Obligations.IgnoredWritesChangeNothing
  intro s w
  refine ⟨⟨rfl, rfl⟩, ⟨rfl, rfl⟩, ⟨rfl, rfl⟩, ⟨rfl, rfl⟩, fun hw => ?_⟩
  have hclear := bit0_clear_of_and_one hw
  exact ⟨rfl, congrArg Decoded.instr (decodeCtrl_of_bit0_clear hclear), execWrCtrl_of_bit0_clear hclear s, rfl⟩

/-- Settles O9: the tables of R72 and of the meanings, entry by entry. -/
theorem operandReadsReturnTheOperandRegisters : Obligations.OperandReadsReturnTheOperandRegisters :=
  fun _ _ => ⟨⟨rfl, rfl⟩, ⟨rfl, rfl⟩, rfl, rfl⟩

/-- RD.CFG returns the word of the byte order (R146, R35). -/
theorem execRdCfg_of_byteOrder {s : State} {o : ByteOrder} (h : s.byteOrder = o) :
    execRdCfg s = .next (s.returnWord (cfgWord o)) := by
  rw [execRdCfg, h]

/-- Settles O10: two constants, and `cfgWord` of each byte order. -/
theorem ctrlReservedAndCfgReadConstants : Obligations.CtrlReservedAndCfgReadConstants := by
  unfold Obligations.CtrlReservedAndCfgReadConstants
  exact fun s w => ⟨⟨rfl, rfl⟩, ⟨rfl, rfl⟩, rfl, execRdCfg_of_byteOrder, execRdCfg_of_byteOrder⟩

/-- Settles O13: RD.DIGEST asks whether the phase is DONE, and outside it draws the next free word. -/
theorem digestReadReturnsDigestOnlyInDone : Obligations.DigestReadReturnsDigestOnlyInDone := by
  unfold Obligations.DigestReadReturnsDigestOnlyInDone
  exact fun s => ⟨fun hdone => congrArg Host.Outcome.next (if_pos hdone),
    fun hother => ⟨Config.freeDigest s.draws, congrArg Host.Outcome.next (if_neg hother)⟩⟩

/-! ### The five words of STATUS -/

theorem ecode_eq_zero_of_inv {s : State} (hi : Inv s) (hp : s.phase ≠ .fault) : s.ecode = 0#4 := by
  obtain ⟨-, ⟨-, hzero⟩, -⟩ := hi
  exact hzero hp

/-- BUSY stands alone in every busy phase (R33). -/
theorem statusWord_busy_noCause {p : Phase} (hb : busy p = true) : statusWord p 0#4 = 0x00000001#32 :=
  (statusWord_busy 0#4 hb).trans (by decide)

/-- Settles O12: by the phase, the invariant giving ECODE; the busy phases are one case. -/
theorem statusReadsOneOfFiveWords : Obligations.StatusReadsOneOfFiveWords := by
  unfold Obligations.StatusReadsOneOfFiveWords
  refine ⟨fun w => rfl, fun s hi => ⟨statusWord s.phase s.ecode, rfl, ?_⟩⟩
  cases hb : busy s.phase with
  | true =>
    have hbusy := busy_eq_true.1 hb
    have hecode : s.ecode = 0#4 := ecode_eq_zero_of_inv hi fun hp => by simp [hp] at hbusy
    exact .inr (.inl ⟨hbusy, by rw [hecode, statusWord_busy_noCause hb]⟩)
  | false =>
    rcases busy_eq_false.1 hb with hp | hp | hp
    · obtain ⟨-, hecode⟩ := (inv_idle_iff hp).1 hi
      exact .inl ⟨hp, by rw [hp, hecode]; decide⟩
    · obtain ⟨-, hecode, -⟩ := (inv_done_iff hp).1 hi
      exact .inr (.inr (.inl ⟨hp, by rw [hp, hecode, statusWord_done]⟩))
    · obtain ⟨-, hecode | hecode⟩ := (inv_fault_iff hp).1 hi
      · exact .inr (.inr (.inr (.inl ⟨hp, hecode, by rw [hp, hecode]; decide⟩)))
      · exact .inr (.inr (.inr (.inr ⟨hp, hecode, by rw [hp, hecode]; decide⟩)))

/-! ### What the host cannot change -/

section
variable {i : Instr} {s t : State}

/-- A host operation makes no read of memory (R55, R130). -/
theorem exec_host_reads (hrow : hostRow i = true) (h : exec i s = .next t) : t.reads = s.reads := by
  rw [exec_host_frame hrow h]

theorem exec_host_phase_of_noStart (hrow : hostRow i = true) (hstart : givesStart i = false)
    (h : exec i s = .next t) : t.phase = s.phase := by
  rw [exec_host_noStart_frame hrow hstart h]

theorem exec_host_phase_of_busy (hrow : hostRow i = true) (hb : busy s.phase = true) (h : exec i s = .next t) :
    t.phase = s.phase := by
  rw [exec_host_busy_frame hrow hb h]

end

/-- Settles O14: without START, or while busy, the frames of the host's operations leave PHASE out. -/
theorem hostOperationsCompleteAndOnlyStartMovesPhase : Obligations.HostOperationsCompleteAndOnlyStartMovesPhase := by
  unfold Obligations.HostOperationsCompleteAndOnlyStartMovesPhase
  intro i s hrow
  obtain ⟨t, ht⟩ := exec_host_completes s hrow
  refine ⟨t, ht, exec_mem ht, exec_host_reads hrow ht, fun hmoved => ⟨?_, busy_eq_false.1 ?_⟩⟩
  · by_contra hstart
    exact hmoved (exec_host_phase_of_noStart hrow (Bool.eq_false_of_not_eq_true hstart) ht)
  · by_contra hbusy
    exact hmoved (exec_host_phase_of_busy hrow (Bool.eq_true_of_not_eq_false hbusy) ht)

/-- Settles O15: no register of the run is among those of `exec_host_busy_frame`. -/
theorem hostCannotDisturbABusyRun : Obligations.HostCannotDisturbABusyRun := by
  unfold Obligations.HostCannotDisturbABusyRun
  intro i s t hrow hbusy h
  rw [exec_host_busy_frame hrow (busy_eq_true.2 hbusy) h]
  exact ⟨rfl, rfl, rfl, rfl, rfl, rfl, rfl, rfl, rfl, rfl, rfl⟩

end Sys2Proof.Machine
end

section
/-! A run on a buffer readable throughout (O51, O52): the turns of the sequencer alone, and the reads they record. -/

namespace Sys2Proof.Machine

/-- Settles O52: the run's end by `interleavedRun_done`. -/
theorem anInterleavedRunComputesHash : Obligations.AnInterleavedRunComputesHash := by
  unfold Obligations.AnInterleavedRunComputesHash
  intro s b w es rest hhold hin hw hlen hspace hbuf hturns
  obtain ⟨t, ht, hp, -, hdigest, hreqs, hrest⟩ :=
    interleavedRun_done (busy_eq_false.2 hhold) hin hw hlen hspace hbuf hturns
  exact ⟨t, ht, hp, hdigest, hrest, hreqs⟩

/-! ### The reads an operation records -/

/-- From `s` to `t` memory stays and every read recorded since is the answer of that memory (R51, R56). -/
structure ReadsFrom (s t : State) : Prop where
  mem : t.mem = s.mem
  reads : ∃ new : List BusRead, t.reads = s.reads ++ new ∧ ∀ r ∈ new, r = busRead s.mem r.addr r.size

theorem readsFrom_of_reads_eq {s t : State} (hm : t.mem = s.mem) (hr : t.reads = s.reads) : ReadsFrom s t :=
  ⟨hm, [], by rw [hr, List.append_nil], by simp⟩

theorem readsFrom_trans {s t u : State} (hst : ReadsFrom s t) (htu : ReadsFrom t u) : ReadsFrom s u := by
  obtain ⟨hmt, new, ht, hnew⟩ := hst
  obtain ⟨hmu, new', hu, hnew'⟩ := htu
  rw [hmt] at hnew'
  exact ⟨hmu.trans hmt, new ++ new', by rw [hu, ht, List.append_assoc],
    List.forall_mem_append.2 ⟨hnew, hnew'⟩⟩

theorem readsFrom_logRead (s : State) (a n : Nat) : ReadsFrom s (s.logRead (busRead s.mem a n)) :=
  ⟨rfl, [busRead s.mem a n], rfl, by simp [busRead]⟩

theorem readsFrom_tailByte (offset : Nat) (x : TailStep) : ReadsFrom x.state (tailByte offset x).state := by
  cases x with
  | refused s => exact readsFrom_of_reads_eq rfl rfl
  | packed t s =>
    rcases (tailByte_cases offset (.packed t s)).2 t s rfl with ⟨-, h⟩ | ⟨-, ⟨b, -, h⟩ | ⟨-, h⟩⟩ <;> rw [h]
    · exact readsFrom_of_reads_eq rfl rfl
    · exact readsFrom_logRead s _ 1
    · exact readsFrom_logRead s _ 1

theorem readsFrom_execTail {s t : State} (h : execTail s = .next t) : ReadsFrom s t := by
  have hreads : ReadsFrom s (tailReads s).state :=
    readsFrom_trans (readsFrom_trans (readsFrom_tailByte 2 (.packed 0 s)) (readsFrom_tailByte 1 _))
      (readsFrom_tailByte 0 _)
  rw [execTail] at h
  cases hx : tailReads s <;> rw [hx] at h hreads <;> cases h <;>
    exact readsFrom_trans hreads (readsFrom_of_reads_eq rfl rfl)

theorem readsFrom_execBulk {s t : State} (h : execBulk s = .next t) : ReadsFrom s t := by
  rcases execBulk_next h with ⟨-, rfl⟩ | ⟨-, -, ⟨b, -, rfl⟩ | ⟨-, rfl⟩⟩
  · exact readsFrom_of_reads_eq rfl rfl
  · exact readsFrom_trans (readsFrom_logRead s _ 4)
      (readsFrom_of_reads_eq (consumeWord_mem ..) (consumeWord_reads ..))
  · exact readsFrom_trans (readsFrom_logRead s _ 4) (readsFrom_of_reads_eq rfl rfl)

/-- BULK and TAIL alone make reads, and each is answered by the memory they find. -/
theorem readsFrom_exec {i : Instr} {s t : State} (h : exec i s = .next t) : ReadsFrom s t := by
  by_cases hbulk : i = .bulk
  · subst hbulk
    exact readsFrom_execBulk h
  by_cases htail : i = .tail
  · subst htail
    exact readsFrom_execTail h
  exact readsFrom_of_reads_eq (exec_mem h) (onlyBulkAndTailReadMemory i s t h hbulk htail)

/-- With no turn listed every step is the sequencer's, so none ever is, and every read is answered by one memory. -/
theorem readsFrom_runSteps {k : Nat} {s t : State} (hin : s.inputs = []) (h : runSteps k s = .next t) :
    t.inputs = [] ∧ ReadsFrom s t := by
  induction k generalizing s with
  | zero =>
    cases h
    exact ⟨hin, readsFrom_of_reads_eq rfl rfl⟩
  | succ k ih =>
    cases hstep : step s with
    | next s' =>
      rw [runSteps_succ _ hstep] at h
      rw [step_nil hin] at hstep
      have hin' : s'.inputs = [] := by rw [exec_sequencer_frame (hostRow_decodePhase _) hstep, hin]
      obtain ⟨ht, hreads⟩ := ih hin' h
      exact ⟨ht, readsFrom_trans (readsFrom_exec hstep) hreads⟩
    | fault r => simp [runSteps, hstep] at h
    | refused r => simp [runSteps, hstep] at h

/-- Reads answered by one memory are fixed by the requests made. -/
theorem reads_of_requests {s t : State} {reqs : List (Nat × Nat)} (h : ReadsFrom s t)
    (hreqs : t.requests = s.requests ++ reqs) : t.reads = s.reads ++ reqs.map fun r => busRead s.mem r.1 r.2 := by
  obtain ⟨-, new, ht, hnew⟩ := h
  have hmap : new.map (fun r => (r.addr, r.size)) = reqs := by
    rw [State.requests, ht, List.map_append] at hreqs
    exact List.append_cancel_left hreqs
  rw [ht, ← hmap, List.map_map, List.append_cancel_left_eq]
  calc new = new.map id := (List.map_id new).symm
    _ = _ := List.map_congr_left hnew

/-! ### The requests of the footprint -/

/-- Every request of the footprint lies inside the buffer (R56). -/
theorem mem_footprint_inside {a n : Nat} {r : Nat × Nat} (h : r ∈ footprint a n) :
    a ≤ r.1 ∧ r.1 + r.2 ≤ a + n := by
  rcases List.mem_append.1 h with h | h
  · obtain ⟨i, hi, rfl⟩ := List.mem_map.1 h
    rw [List.mem_range] at hi
    constructor <;> dsimp only <;> omega
  · obtain ⟨j, hj, rfl⟩ := List.mem_map.1 h
    rw [List.mem_reverse, List.mem_range] at hj
    constructor <;> dsimp only <;> omega

/-- A request inside a readable buffer is answered (R51). -/
theorem readBytes_isSome_of_bufferAt {m : Memory} {a : Nat} {b : List Byte} (hbuf : BufferAt m a b) {p n : Nat}
    (hlow : a ≤ p) (hhigh : p + n ≤ a + b.length) : (readBytes m p n).isSome = true := by
  rw [Option.isSome_iff_ne_none]
  intro hnone
  obtain ⟨i, hi, hread⟩ := (readBytes_eq_none_iff m p n).1 hnone
  have hat := hbuf (p + i - a) (by omega)
  rw [Nat.add_sub_of_le (by omega), hread, List.getElem?_eq_getElem (by omega)] at hat
  cases hat

/-! ### The sequencer's turns alone -/

/-- With no turn listed the sequencer takes `j` of its `j + i` turns. -/
theorem runLeft_runSteps_alone {a n : Nat} {d : Word} {reqs : List (Nat × Nat)} (hspace : a + n ≤ 2 ^ 32) {s : State}
    (hin : s.inputs = []) (j : Nat) {i : Nat} (h : RunLeft a n d reqs s (j + i)) :
    ∃ t, runSteps j s = .next t ∧ RunLeft a n d reqs t i := by
  induction j generalizing i with
  | zero => exact ⟨s, rfl, by rwa [Nat.zero_add] at h⟩
  | succ j ih =>
    rw [Nat.succ_add_eq_add_succ] at h
    obtain ⟨t, ht, hrun⟩ := ih h
    obtain ⟨t', ht', hrun'⟩ := runLeft_exec_decodePhase hspace hrun
    rw [← step_nil (readsFrom_runSteps hin ht).1] at ht'
    exact ⟨t', (runSteps_add ht).trans (runSteps_succ 0 ht'), hrun'⟩

/-- Settles O51: the run of `runLeft_runSteps_alone`, whose requests fix its reads. -/
theorem aRunComputesHash : Obligations.ARunComputesHash := by
  unfold Obligations.ARunComputesHash
  intro s b w hhold hin hw hlen hspace hbuf
  have hstart := step_start (busy_eq_false.2 hhold) hin hw (rangeOk_eq_true.2 (hlen ▸ hspace))
  have hrun := runLeft_beginRun (s := s.take []) hlen hbuf
  constructor
  · obtain ⟨t, ht, hend⟩ := runLeft_runSteps_alone (i := 0) hspace rfl _ hrun
    obtain ⟨hp, -, hdigest, hreqs⟩ := runLeft_zero_iff.1 hend
    have hreads := (readsFrom_runSteps rfl ht).2
    exact ⟨t, by rw [Nat.add_comm, runSteps_succ _ hstart, ht], hp, hdigest, hreads.mem,
      reads_of_requests (s := beginRun (s.take [])) hreads hreqs, fun r hr => readBytes_isSome_of_bufferAt hbuf
        (mem_footprint_inside hr).1 (mem_footprint_inside hr).2⟩
  · intro k hk
    obtain ⟨i, hi⟩ := Nat.exists_eq_add_of_lt hk
    rw [hi, Nat.add_assoc] at hrun
    obtain ⟨t, ht, hleft⟩ := runLeft_runSteps_alone hspace rfl k hrun
    exact ⟨t, by rw [Nat.add_comm, runSteps_succ _ hstart, ht], busy_of_runLeft hleft⟩

end Sys2Proof.Machine
end

section
/-! A run on a buffer with an unreadable byte (O54): FAULT at the first request of the footprint that touches one. -/

namespace Sys2Proof.Machine

/-- In `t` the run that stood in `s` with the requests `reqs` to make has failed at request `j`: those before it were
answered, it was refused, these are the reads recorded since, and DIGEST and memory stayed (R153). -/
structure FailedAt (s : State) (reqs : List (Nat × Nat)) (j : Nat) (t : State) : Prop where
  phase : t.phase = .fault
  ecode : t.ecode = 2#4
  digest : t.digest = s.digest
  mem : t.mem = s.mem
  refused : ∃ r, reqs[j]? = some r ∧ readBytes s.mem r.1 r.2 = none
  answered : ∀ r ∈ reqs.take j, (readBytes s.mem r.1 r.2).isSome = true
  reads : t.reads = s.reads ++ (reqs.take (j + 1)).map fun r => busRead s.mem r.1 r.2

/-- The run fails within `bound` of the sequencer's turns. -/
def FailsWithin (bound : Nat) (reqs : List (Nat × Nat)) (s : State) : Prop :=
  ∃ (k j : Nat) (t : State), k ≤ bound ∧ runSteps k s = .next t ∧ FailedAt s reqs j t

section
variable {s : State}

/-- A turn whose requests `made`, if it makes any, are answered leaves the run to fail at a later one. -/
theorem failsWithin_of_answered {s' : State} {made reqs : List (Nat × Nat)} {bound : Nat} (hstep : step s = .next s')
    (hmem : s'.mem = s.mem) (hdigest : s'.digest = s.digest)
    (hreads : s'.reads = s.reads ++ made.map fun r => busRead s.mem r.1 r.2)
    (hmade : ∀ r ∈ made, (readBytes s.mem r.1 r.2).isSome = true) (h : FailsWithin bound reqs s') :
    FailsWithin (bound + 1) (made ++ reqs) s := by
  obtain ⟨k, j, t, hk, hrun, ht⟩ := h
  have hrefused := ht.refused
  have hanswered := ht.answered
  have hrecord := ht.reads
  rw [hmem] at hrefused hanswered hrecord
  refine ⟨k + 1, made.length + j, t, Nat.succ_le_succ hk, (runSteps_succ k hstep).trans hrun, {
    phase := ht.phase
    ecode := ht.ecode
    digest := ht.digest.trans hdigest
    mem := ht.mem.trans hmem
    refused := by rwa [List.getElem?_append_right (Nat.le_add_right ..), Nat.add_sub_cancel_left]
    answered := by
      rw [List.take_length_add_append]
      exact List.forall_mem_append.2 ⟨hmade, hanswered⟩
    reads := by
      rw [hrecord, hreads, Nat.add_assoc, List.take_length_add_append, List.map_append, List.append_assoc] }⟩

/-- A first request refused in one turn is where the run fails (R172). -/
theorem failsWithin_of_refused {p n bound : Nat} {reqs : List (Nat × Nat)}
    (hstep : step s = .next (enterFault .iaRead (s.logRead (busRead s.mem p n))))
    (hread : readBytes s.mem p n = none) : FailsWithin (bound + 1) ((p, n) :: reqs) s :=
  ⟨1, 0, _, Nat.le_add_left 1 bound, runSteps_succ 0 hstep, {
    phase := rfl
    ecode := rfl
    digest := rfl
    mem := rfl
    refused := ⟨(p, n), rfl, hread⟩
    answered := fun _ h => nomatch h
    reads := rfl }⟩

/-- The offsets that TAIL asks for before offset `j` are those above it (R111). -/
theorem lt_of_mem_take_reverse_range {n i j : Nat} (h : i ∈ (List.range n).reverse.take (n - 1 - j)) :
    j < i ∧ i < n := by
  obtain ⟨p, hp, rfl⟩ := List.mem_take_iff_getElem.1 h
  simp only [List.length_reverse, List.length_range, List.getElem_reverse, List.getElem_range] at hp ⊢
  omega

/-- With no turn listed the step is the operation of the phase `p` the state stands in. -/
theorem step_inPhase {p : Phase} (hin : s.inputs = []) (hp : s.phase = p) : step s = exec (decodePhase p) s := by
  rw [step_nil hin, hp]

/-- TAIL with one of its bytes unreadable fails at the highest such byte (R172, R175). -/
theorem failsWithin_tail (hp : s.phase = .tail) (hin : s.inputs = []) (hrem : s.rem.toNat < 4)
    (hspace : s.ptr.toNat + s.rem.toNat ≤ 2 ^ 32) (hnone : readBytes s.mem s.ptr.toNat s.rem.toNat = none) :
    FailsWithin 1 (footprint s.ptr.toNat s.rem.toNat) s := by
  obtain ⟨j, hj, hread, hsome⟩ := exists_last_refused hnone
  have htail := (step_inPhase hin hp).trans
    (tailFaultsAtTheFirstRefusedRead s j (Nat.le_of_lt_succ hrem) hspace hj hread hsome)
  have hoffset : s.rem.toNat - 1 - (s.rem.toNat - 1 - j) = j := by omega
  have hcount : s.rem.toNat - 1 - j + 1 = s.rem.toNat - j := by omega
  rw [footprint_tail _ hrem]
  refine ⟨1, s.rem.toNat - 1 - j, _, le_refl 1, runSteps_succ 0 htail, {
    phase := rfl
    ecode := rfl
    digest := rfl
    mem := rfl
    refused := ⟨(s.ptr.toNat + j, 1), ?_, ?_⟩
    answered := ?_
    reads := ?_ }⟩
  · rw [List.getElem?_map, List.getElem?_reverse (by rw [List.length_range]; omega), List.length_range, hoffset,
      List.getElem?_range hj, Option.map_some]
  · rw [readBytes_one, hread, Option.map_none]
  · rw [← List.map_take, List.forall_mem_map]
    intro i hi
    obtain ⟨hji, hirem⟩ := lt_of_mem_take_reverse_range hi
    rw [readBytes_one, Option.isSome_map, Option.isSome_iff_ne_none]
    exact hsome i hji hirem
  · rw [← List.map_take, List.map_map, hcount]
    rfl

/-- A refused read whose first word is answered is refused above that word. -/
theorem readBytes_none_above {m : Memory} {a n : Nat} {b : List Byte} (hword : readBytes m a 4 = some b)
    (hnone : readBytes m a n = none) : 4 < n ∧ readBytes m (a + 4) (n - 4) = none := by
  obtain ⟨i, hi, hbyte⟩ := (readBytes_eq_none_iff ..).1 hnone
  have habove : 4 ≤ i := by
    by_contra hlt
    cases hword.symm.trans ((readBytes_eq_none_iff ..).2 ⟨i, Nat.lt_of_not_le hlt, hbyte⟩)
  refine ⟨by omega, (readBytes_eq_none_iff ..).2 ⟨i - 4, by omega, ?_⟩⟩
  rwa [Nat.add_assoc, Nat.add_sub_of_le habove]

/-- From BULK the run fails: by the words left, one is refused or consumed, or BULK exits and TAIL fails. -/
theorem failsWithin_bulk (hp : s.phase = .bulk) (hin : s.inputs = []) (hspace : s.ptr.toNat + s.rem.toNat ≤ 2 ^ 32)
    (hnone : readBytes s.mem s.ptr.toNat s.rem.toNat = none) :
    FailsWithin (s.rem.toNat / 4 + 2) (footprint s.ptr.toNat s.rem.toNat) s := by
  induction hw : s.rem.toNat / 4 generalizing s with
  | zero =>
    have hstep : step s = execBulk s := step_inPhase hin hp
    have hrem : s.rem.toNat < 4 := by omega
    exact failsWithin_of_answered (made := []) (hstep.trans (execBulk_exits hrem)) rfl rfl (List.append_nil _).symm
      (by simp) (failsWithin_tail rfl hin hrem hspace hnone)
  | succ w ih =>
    have hstep : step s = execBulk s := step_inPhase hin hp
    have hrem : 4 ≤ s.rem.toNat := by omega
    have hword : s.ptr.toNat + 4 ≤ spaceSize := show s.ptr.toNat + 4 ≤ 4294967296 by omega
    rw [footprint_drop_word _ hrem, Nat.succ_add]
    cases hread : readBytes s.mem s.ptr.toNat 4 with
    | none => exact failsWithin_of_refused (hstep.trans (execBulk_refused hrem hword hread)) hread
    | some b =>
      obtain ⟨hmore, habove⟩ := readBytes_none_above hread hnone
      have hrem' : (s.rem - 4).toNat = s.rem.toNat - 4 := BitVec.toNat_sub_of_le hrem
      have hptr' : (s.ptr + 4).toNat = s.ptr.toNat + 4 :=
        BitVec.toNat_add_of_lt (show s.ptr.toNat + 4 < 2 ^ 32 by omega)
      have hnext := ih (s := consumeWord b (s.logRead (busRead s.mem s.ptr.toNat 4)))
      simp only [consumeWord_phase, consumeWord_inputs, consumeWord_mem, consumeWord_ptr, consumeWord_rem,
        State.logRead_inputs, State.logRead_mem, State.logRead_ptr, State.logRead_rem, hrem', hptr'] at hnext
      refine failsWithin_of_answered (made := [(s.ptr.toNat, 4)]) (hstep.trans (execBulk_consumes hrem hword hread))
        (consumeWord_mem ..) (consumeWord_digest ..) (consumeWord_reads ..) (by simp [hread])
        (hnext trivial hin (by omega) habove (by omega))

end

/-- Settles O54: the run that START begins has its whole footprint to make, and fails by `failsWithin_bulk`. -/
theorem aRunEndsAtTheFirstRefusedRead : Obligations.ARunEndsAtTheFirstRefusedRead := by
  unfold Obligations.ARunEndsAtTheFirstRefusedRead
  intro s w hhold hin hw hspace hnone
  have hstart := step_start (busy_eq_false.2 hhold) hin hw (rangeOk_eq_true.2 hspace)
  obtain ⟨k, j, t, hk, hrun, ht⟩ :=
    failsWithin_bulk (s := beginRun (s.take [])) rfl rfl hspace ((readBytes_eq_none_iff ..).2 hnone)
  exact ⟨k, j, t, hk, by rw [Nat.add_comm, runSteps_succ _ hstart, hrun], ht.phase, ht.ecode, ht.digest, ht.mem,
    ht.refused, ht.answered, ht.reads⟩

end Sys2Proof.Machine
end

section
/-! What Hash tells apart (O56, O57, O58): each fold is a bijection of the accumulator and of the key, so a difference
that one fold makes stands to the end. -/

namespace Sys2Proof.Machine

/-! ### The seed -/

/-- The bulk words fold the accumulator bijectively. -/
theorem hashBulk_bijective (o : ByteOrder) (b : List Byte) (i : Nat) :
    Function.Bijective fun h => hashBulk o b h i := by
  induction i with
  | zero => exact Function.bijective_id
  | succ i ih => exact (mixH_bijective_accumulator _).comp ih

/-- Settles O56: Hash is a chain of folds of the seed, each a bijection. -/
theorem distinctSeedsGiveDistinctDigests : Obligations.DistinctSeedsGiveDistinctDigests := by
  unfold Obligations.DistinctSeedsGiveDistinctDigests
  intro o b
  exact fmix_bijective.comp ((mixH_bijective_accumulator _).comp
    ((mixH_bijective_accumulator _).comp (hashBulk_bijective o b _)))

/-! ### The bulk words -/

section
variable {o : ByteOrder} {b b' : List Byte} {h h' : Word} {n : Nat}

/-- The accumulator after `n` bulk words depends on those words only. -/
theorem hashBulk_congr (hwords : ∀ i, i < n → bulkBytes b i = bulkBytes b' i) :
    hashBulk o b h n = hashBulk o b' h n := by
  induction n with
  | zero => rfl
  | succ n ih => rw [hashBulk, hashBulk, ih fun i hi => hwords i (Nat.lt_succ_of_lt hi), hwords n (Nat.lt_succ_self n)]

/-- Accumulators that differ are kept apart by equal bulk words. -/
theorem hashBulk_ne_of_ne {m : Nat} (hmn : m ≤ n) (hne : hashBulk o b h m ≠ hashBulk o b' h' m)
    (hwords : ∀ i, m ≤ i → bulkBytes b i = bulkBytes b' i) : hashBulk o b h n ≠ hashBulk o b' h' n := by
  induction n, hmn using Nat.le_induction with
  | base => exact hne
  | succ n hmn ih =>
    rw [hashBulk, hashBulk, hwords n hmn]
    exact (mixH_bijective_accumulator _).injective.ne ih

/-- The bytes up to the end of the complete words give the words. -/
theorem bulkBytes_eq_of_take_eq (htake : b.take (4 * n) = b'.take (4 * n)) {i : Nat} (hi : i < n) :
    bulkBytes b i = bulkBytes b' i := by
  have hinside : ∀ c : List Byte, bulkBytes c i = bulkBytes (c.take (4 * n)) i := fun c => by
    rw [bulkBytes, bulkBytes, List.drop_take, List.take_take, Nat.min_eq_left (by omega)]
  rw [hinside b, htake, ← hinside b']

theorem bulkBytes_length {i : Nat} (hi : i < b.length / 4) : (bulkBytes b i).length = 4 := by
  rw [bulkBytes, List.length_take_of_le]
  rw [List.length_drop]
  omega

end

/-! ### The words assembled from bytes -/

/-- The number whose digits in base 256 are the bytes, the first least significant. -/
def bytesValue (y : List Byte) : Nat := Nat.ofDigits 256 (y.map BitVec.toNat)

/-- Equally many bytes are recovered from their number. -/
theorem eq_of_bytesValue_eq {y y' : List Byte} (hlen : y.length = y'.length) (h : bytesValue y = bytesValue y') :
    y = y' := by
  have hdigit : ∀ z : List Byte, ∀ d ∈ z.map BitVec.toNat, d < 256 := fun z =>
    List.forall_mem_map.2 fun c _ => c.isLt
  refine List.map_injective_iff.2 (fun _ _ => BitVec.eq_of_toNat_eq)
    (Nat.ofDigits_inj_of_len_eq (by decide) ?_ (hdigit y) (hdigit y') h)
  rw [List.length_map, List.length_map, hlen]

/-- The LE bulk word is its bytes' number (R52). -/
theorem word_le_toNat {y : List Byte} (hy : y.length = 4) : (word .le y).toNat = bytesValue y := by
  match y, hy with
  | [b0, b1, b2, b3], _ =>
    rw [(bulkWordFollowsByteOrder b0 b1 b2 b3).1]
    simp [bytesValue, Nat.ofDigits_cons]
    omega

/-- The BE bulk word is the LE word of the reversed bytes. -/
theorem word_be {y : List Byte} (hy : y.length = 4) : word .be y = word .le y.reverse := by
  match y, hy with
  | [b0, b1, b2, b3], _ => rfl

/-- Four bytes are recovered from the bulk word they form. -/
theorem word_injective {o : ByteOrder} {y y' : List Byte} (hy : y.length = 4) (hy' : y'.length = 4)
    (h : word o y = word o y') : y = y' := by
  have hle : ∀ {z z' : List Byte}, z.length = 4 → z'.length = 4 → word .le z = word .le z' → z = z' :=
    fun hz hz' heq => eq_of_bytesValue_eq (hz.trans hz'.symm) (by rw [← word_le_toNat hz, heq, word_le_toNat hz'])
  cases o with
  | le => exact hle hy hy' h
  | be =>
    rw [word_be hy, word_be hy'] at h
    exact List.reverse_injective (hle (by rw [List.length_reverse, hy]) (by rw [List.length_reverse, hy']) h)

/-- The tail word is its bytes' number (R110). -/
theorem tailPack_toNat {y : List Byte} (hy : y.length < 4) : (tailPack y.length y).toNat = bytesValue y := by
  match y, hy with
  | [], _ => rfl
  | [b0], _ =>
    obtain ⟨-, h, -⟩ := tailPackIsLeastSignificantByteFirst b0 0 0
    rw [List.length_singleton, h]
    simp [bytesValue, Nat.ofDigits_cons]
  | [b0, b1], _ =>
    obtain ⟨-, -, h, -⟩ := tailPackIsLeastSignificantByteFirst b0 b1 0
    change (tailPack 2 [b0, b1]).toNat = _
    rw [h]
    simp [bytesValue, Nat.ofDigits_cons]
  | [b0, b1, b2], _ =>
    obtain ⟨-, -, -, h⟩ := tailPackIsLeastSignificantByteFirst b0 b1 b2
    change (tailPack 3 [b0, b1, b2]).toNat = _
    rw [h]
    simp [bytesValue, Nat.ofDigits_cons]
    omega

/-- The 0 to 3 bytes of a tail are recovered from their number and the tail word. -/
theorem tailPack_injective {y y' : List Byte} (hlen : y.length = y'.length) (hshort : y.length < 4)
    (h : tailPack y.length y = tailPack y.length y') : y = y' := by
  refine eq_of_bytesValue_eq hlen ?_
  rw [← tailPack_toNat hshort, h, hlen, tailPack_toNat (hlen ▸ hshort)]

theorem tailBytes_length (b : List Byte) : (tailBytes b).length = b.length % 4 := by
  rw [tailBytes, List.length_drop]
  omega

/-! ### The digest -/

/-- Lengths that differ, below 2^32, are different keys of the last fold. -/
theorem refHash_ne_of_length_ne {o : ByteOrder} {b b' : List Byte} {seed : Word} (hb : b.length < 2 ^ 32)
    (hb' : b'.length < 2 ^ 32) (hne : b.length ≠ b'.length) (hcount : b.length / 4 = b'.length / 4)
    (htake : b.take (4 * (b.length / 4)) = b'.take (4 * (b.length / 4))) (htail : hashTail b = hashTail b') :
    refHash o b seed ≠ refHash o b' seed := by
  rw [refHash, refHash, ← hcount, htail, hashBulk_congr fun i hi => bulkBytes_eq_of_take_eq htake hi]
  refine fmix_bijective.injective.ne ((mixH_bijective_key _).injective.ne fun hkey => hne ?_)
  have hmod := congrArg BitVec.toNat hkey
  rwa [BitVec.toNat_ofNat, BitVec.toNat_ofNat, Nat.mod_eq_of_lt hb, Nat.mod_eq_of_lt hb'] at hmod

/-- Settles O57: `refHash_ne_of_length_ne`, whose premises the two buffers of the example meet. -/
theorem lengthAloneChangesTheDigest : Obligations.LengthAloneChangesTheDigest := by
  unfold Obligations.LengthAloneChangesTheDigest
  exact ⟨fun o b b' seed => refHash_ne_of_length_ne, fun o seed =>
    refHash_ne_of_length_ne (by decide) (by decide) (by decide) (by decide) (by decide) (by decide)⟩

section
variable {o : ByteOrder} {b b' : List Byte} {seed : Word} (hlen : b.length = b'.length)
include hlen

/-- Equal tails leave the digests as far apart as the accumulators after the bulk words. -/
theorem refHash_ne_of_hashBulk_ne (htail : tailBytes b = tailBytes b')
    (hbulk : hashBulk o b seed (b.length / 4) ≠ hashBulk o b' seed (b.length / 4)) :
    refHash o b seed ≠ refHash o b' seed := by
  rw [refHash, refHash, hashTail, hashTail, ← hlen, htail]
  exact fmix_bijective.injective.ne ((mixH_bijective_accumulator _).injective.ne
    ((mixH_bijective_accumulator _).injective.ne hbulk))

/-- After bulk words of which exactly one differs the accumulators differ. -/
theorem hashBulk_ne_of_one_word_ne {j : Nat} (hj : j < b.length / 4) (hword : bulkBytes b j ≠ bulkBytes b' j)
    (hothers : ∀ i, i ≠ j → bulkBytes b i = bulkBytes b' i) :
    hashBulk o b seed (b.length / 4) ≠ hashBulk o b' seed (b.length / 4) := by
  refine hashBulk_ne_of_ne (m := j + 1) hj ?_ fun i hi => hothers i (by omega)
  rw [hashBulk, hashBulk, hashBulk_congr fun i hi => hothers i hi.ne]
  exact (mixH_bijective_key _).injective.ne
    (mt (word_injective (bulkBytes_length hj) (bulkBytes_length (hlen ▸ hj))) hword)

/-- Tails that differ are folded as different keys. -/
theorem refHash_ne_of_tailBytes_ne (hwords : ∀ i, i < b.length / 4 → bulkBytes b i = bulkBytes b' i)
    (htail : tailBytes b ≠ tailBytes b') : refHash o b seed ≠ refHash o b' seed := by
  have htail' : hashTail b ≠ hashTail b' := by
    rw [hashTail, hashTail, ← hlen, ← tailBytes_length b]
    refine mt (tailPack_injective ?_ ?_) htail
    · rw [tailBytes_length, tailBytes_length, hlen]
    · rw [tailBytes_length]
      exact Nat.mod_lt _ (by decide)
  rw [refHash, refHash, ← hlen, hashBulk_congr hwords]
  exact fmix_bijective.injective.ne ((mixH_bijective_accumulator _).injective.ne
    ((mixH_bijective_key _).injective.ne htail'))

end

/-- Settles O58: a changed word is a changed key, and the folds after it keep the accumulators apart. -/
theorem oneChangedWordChangesTheDigest : Obligations.OneChangedWordChangesTheDigest := by
  unfold Obligations.OneChangedWordChangesTheDigest
  intro o b b' seed hlen
  exact ⟨fun j hj hword hothers htail =>
      refHash_ne_of_hashBulk_ne hlen htail (hashBulk_ne_of_one_word_ne hlen hj hword hothers),
    refHash_ne_of_tailBytes_ne hlen⟩

end Sys2Proof.Machine
end

section
/-! The two byte orders (O59): BE is LE on the buffer with each bulk word's bytes reversed. -/

namespace Sys2Proof.Machine

/-- Fewer than four bytes hold no bulk word. -/
theorem swapBulkWords_of_short {y : List Byte} (hy : y.length < 4) : swapBulkWords y = y := by
  match y, hy with
  | [], _ => rfl
  | [_], _ => rfl
  | [_, _], _ => rfl
  | [_, _, _], _ => rfl

theorem swapBulkWords_length (y : List Byte) : (swapBulkWords y).length = y.length := by
  induction y using swapBulkWords.induct with
  | case1 b0 b1 b2 b3 rest ih => simp [swapBulkWords, ih]
  | case2 rest hrest => rw [swapBulkWords.eq_2 rest hrest]

/-- Word by word, BE folds what LE folds of the reversed word; the tail is the same (R162). -/
theorem hashFrom_swapBulkWords (y : List Byte) (h l : Word) :
    hashFrom .le (swapBulkWords y) h l = hashFrom .be y h l := by
  induction y using swapBulkWords.induct generalizing h with
  | case1 b0 b1 b2 b3 rest ih =>
    rw [swapBulkWords, ← hashFrom_drop_word .le (by simp), ← hashFrom_drop_word .be (by simp)]
    exact ih _
  | case2 rest hrest =>
    have hshort : rest.length < 4 := by
      match rest, hrest with
      | [], _ | [_], _ | [_, _], _ | [_, _, _], _ => simp
      | b0 :: b1 :: b2 :: b3 :: rest, hrest => exact absurd rfl (hrest b0 b1 b2 b3 rest)
    rw [swapBulkWords_of_short hshort, hashFrom_tail _ hshort, hashFrom_tail _ hshort]

/-- Settles O59: `hashFrom_swapBulkWords` at the seed; below four bytes there is nothing to reverse. -/
theorem byteOrdersAreRelated : Obligations.ByteOrdersAreRelated := by
  unfold Obligations.ByteOrdersAreRelated
  intro b seed
  have hswap : refHash .be b seed = refHash .le (swapBulkWords b) seed := by
    rw [← hashFrom_seed, ← hashFrom_seed, swapBulkWords_length, hashFrom_swapBulkWords]
  exact ⟨hswap, fun hshort => by rw [hswap, swapBulkWords_of_short hshort]⟩

end Sys2Proof.Machine
end

section
/-! Fault entry (O40): the START command enters FAULT by the range test, BULK and TAIL by a refused read, and no other
operation enters it. -/

namespace Sys2Proof.Machine

section
variable {i : Instr} {s t : State}

/-- An operation that gives START performs the START command, whichever format carries it (R73, R138). -/
theorem exec_of_givesStart (h : givesStart i = true) (s : State) : exec i s = .next (startCommand s) := by
  cases i
  case start w => rfl
  case wrCtrl w => exact execWrCtrl_of_bit0_set h s
  all_goals cases h

/-- A START command that leaves PHASE at FAULT was refused by the range test: ignored, it would leave a busy phase, and
accepted, it would leave PHASE at BULK (R138, R139, R171). -/
theorem startCommand_of_phase_fault (h : (startCommand s).phase = .fault) :
    startCommand s = enterFault .iaRange s := by
  rcases startCommand_cases s with ⟨hbusy, he⟩ | ⟨-, -, he⟩ | ⟨-, -, he⟩
  · rw [he] at h
    rw [h] at hbusy
    cases hbusy
  · rw [he] at h
    cases h
  · exact he

/-- BULK enters FAULT only when its word is refused (R100, R172). -/
theorem execBulk_of_phase_fault (h : execBulk s = .next t) (hp : t.phase = .fault) :
    t = enterFault .iaRead (s.logRead (busRead s.mem s.ptr.toNat 4)) := by
  rcases execBulk_next h with ⟨-, rfl⟩ | ⟨-, -, ⟨b, -, rfl⟩ | ⟨-, ht⟩⟩
  · cases hp
  · rw [consumeWord_phase] at hp
    cases hp
  · exact ht

/-- TAIL enters FAULT only when a byte is refused (R111, R172). -/
theorem execTail_of_phase_fault (h : execTail s = .next t) (hp : t.phase = .fault) :
    t = { enterFault .iaRead s with reads := t.reads } := by
  rcases execTail_cases s with ⟨w, rs, ht⟩ | ⟨rs, ht⟩ <;> cases ht.symm.trans h
  · cases hp
  · rfl

/-- Outside FAULT only BULK and TAIL of the operations that give no START enter it, with IA_READ (R170, R176). -/
theorem exec_noStart_of_phase_fault (hstart : givesStart i = false) (h : exec i s = .next t) (hs : s.phase ≠ .fault)
    (hp : t.phase = .fault) :
    (i = .bulk ∨ i = .tail) ∧ t = { enterFault .iaRead s with reads := t.reads } := by
  cases hrow : hostRow i with
  | true => exact absurd (exec_host_phase_of_noStart hrow hstart h ▸ hp) hs
  | false =>
    cases i
    case bulk =>
      refine ⟨.inl rfl, ?_⟩
      rw [execBulk_of_phase_fault h hp]
      rfl
    case tail => exact ⟨.inr rfl, execTail_of_phase_fault h hp⟩
    case idle | done | fault =>
      cases h
      exact absurd hp hs
    case tmix | lmix | aval =>
      cases h
      cases hp
    all_goals cases hrow

end

/-- Settles O40: a START that ends in FAULT is refused by the range test; any other operation that does so from outside
FAULT is BULK or TAIL. -/
theorem faultEntryWritesOnlyPhaseAndEcode : Obligations.FaultEntryWritesOnlyPhaseAndEcode := by
  unfold Obligations.FaultEntryWritesOnlyPhaseAndEcode
  intro i s t h hentry hp
  cases hstart : givesStart i with
  | true =>
    cases (exec_of_givesStart hstart s).symm.trans h
    rw [startCommand_of_phase_fault hp]
    exact ⟨rfl, .inl ⟨rfl, rfl, rfl⟩⟩
  | false =>
    have hs : s.phase ≠ .fault := hentry.resolve_right (by simp [hstart])
    obtain ⟨hi, ht⟩ := exec_noStart_of_phase_fault hstart h hs hp
    rw [ht]
    exact ⟨rfl, .inr ⟨hi, rfl⟩⟩

end Sys2Proof.Machine
end

section
/-! Every run ends (O55): at each of its turns the sequencer has fewer left, and only DONE and FAULT end a run. -/

namespace Sys2Proof.Machine

/-- The sequencer's turns a run still takes, at most: ⌊REM/4⌋ words and five operations from BULK on, fewer from each
later phase, none in a hold state (R101, R125). -/
def turnsLeft (s : State) : Nat :=
  match s.phase with
  | .bulk => s.rem.toNat / 4 + 5
  | .tail => 4
  | .tmix => 3
  | .lmix => 2
  | .aval => 1
  | .idle | .done | .fault => 0

section
variable {s t : State}

theorem turnsLeft_bulk (hp : s.phase = .bulk) : turnsLeft s = s.rem.toNat / 4 + 5 := by rw [turnsLeft, hp]

theorem turnsLeft_tail (hp : s.phase = .tail) : turnsLeft s = 4 := by rw [turnsLeft, hp]

theorem turnsLeft_tmix (hp : s.phase = .tmix) : turnsLeft s = 3 := by rw [turnsLeft, hp]

theorem turnsLeft_fault (hp : s.phase = .fault) : turnsLeft s = 0 := by rw [turnsLeft, hp]

theorem turnsLeft_le (s : State) : turnsLeft s ≤ s.rem.toNat / 4 + 5 := by
  unfold turnsLeft
  split <;> omega

/-- From `s` to `t` the run has fewer turns left, and `t` does not stand in IDLE, so a run that has none left has ended
in DONE or FAULT. -/
def Advances (s t : State) : Prop := t.phase ≠ .idle ∧ turnsLeft t < turnsLeft s

/-- BULK consumes a word of REM, exits or faults (R100, R101). -/
theorem advances_execBulk (hp : s.phase = .bulk) (h : execBulk s = .next t) : Advances s t := by
  rw [Advances, turnsLeft_bulk hp]
  rcases execBulk_next h with ⟨-, rfl⟩ | ⟨hrem, -, ⟨b, -, rfl⟩ | ⟨-, rfl⟩⟩
  · rw [turnsLeft_tail rfl]
    exact ⟨Phase.noConfusion, by omega⟩
  · have hrem' : (s.rem - 4).toNat = s.rem.toNat - 4 := BitVec.toNat_sub_of_le hrem
    rw [consumeWord_phase, turnsLeft_bulk (consumeWord_phase ..), consumeWord_rem, State.logRead_rem, hrem']
    exact ⟨Phase.noConfusion, by omega⟩
  · rw [turnsLeft_fault rfl]
    exact ⟨Phase.noConfusion, Nat.succ_pos _⟩

/-- TAIL goes on to TMIX or faults (R111, R172). -/
theorem advances_execTail (hp : s.phase = .tail) (h : execTail s = .next t) : Advances s t := by
  rw [Advances, turnsLeft_tail hp]
  rcases execTail_cases s with ⟨w, rs, ht⟩ | ⟨rs, ht⟩ <;> cases ht.symm.trans h
  · rw [turnsLeft_tmix rfl]
    exact ⟨Phase.noConfusion, Nat.lt_succ_self 3⟩
  · rw [turnsLeft_fault rfl]
    exact ⟨Phase.noConfusion, Nat.succ_pos 3⟩

/-- Every operation of a busy phase advances the run (R125). -/
theorem advances_exec_decodePhase (hb : busy s.phase = true) (h : exec (decodePhase s.phase) s = .next t) :
    Advances s t := by
  cases hp : s.phase <;> rw [hp] at h hb
  case bulk => exact advances_execBulk hp h
  case tail => exact advances_execTail hp h
  case tmix | lmix | aval =>
    cases h
    simp [Advances, turnsLeft, hp]
  all_goals cases hb

/-- A run with no other turn listed ends in DONE or FAULT within the turns it has left. -/
theorem runSteps_ends (hi : Inv s) (hidle : s.phase ≠ .idle) (hin : s.inputs = []) :
    ∃ (k : Nat) (t : State), k ≤ turnsLeft s ∧ runSteps k s = .next t ∧ (t.phase = .done ∨ t.phase = .fault) := by
  induction hn : turnsLeft s using Nat.strong_induction_on generalizing s with
  | _ n ih =>
    subst hn
    cases hb : busy s.phase with
    | false => exact ⟨0, s, Nat.zero_le _, rfl, (busy_eq_false.1 hb).resolve_left hidle⟩
    | true =>
      obtain ⟨s', hstep⟩ := invariantStatesNeverStop s hi
      obtain ⟨hidle', hless⟩ := advances_exec_decodePhase hb ((step_nil hin).symm.trans hstep)
      have hin' : s'.inputs = [] := (readsFrom_runSteps hin (runSteps_succ 0 hstep)).1
      obtain ⟨k, t, hk, hrun, hend⟩ := ih _ hless (inv_step hi hstep) hidle' hin' rfl
      exact ⟨k + 1, t, hk.trans_lt hless, (runSteps_succ k hstep).trans hrun, hend⟩

end

/-- Settles O55: by `runSteps_ends`, the turns left of a busy state being at most ⌊REM/4⌋ + 5. -/
theorem everyRunEndsWithinItsBound : Obligations.EveryRunEndsWithinItsBound := by
  unfold Obligations.EveryRunEndsWithinItsBound
  intro s hi hb hin
  have hidle : s.phase ≠ .idle := fun hp => by simp [hp, busy] at hb
  obtain ⟨k, t, hk, hrun, hend⟩ := runSteps_ends hi hidle hin
  exact ⟨k, t, hk.trans (turnsLeft_le s), hrun, hend⟩

end Sys2Proof.Machine
end

section
/-! Reset (O45), and the commands as operations of their own, whatever word they carry (O18). -/

namespace Sys2Proof.Machine

/-- Settles O45: the turn is the platform's reset, of which each field is as R43 gives it or kept. -/
theorem resetEventRestoresTheResetState : Obligations.ResetEventRestoresTheResetState := by
  unfold Obligations.ResetEventRestoresTheResetState
  intro s rest hin
  exact ⟨_, step_reset hin, by simp⟩

/-- Settles O18: START is the START command for every word it carries, by its outcomes in a hold state and while busy. -/
theorem commandsIgnoreTheirWord : Obligations.CommandsIgnoreTheirWord := by
  unfold Obligations.CommandsIgnoreTheirWord
  intro s w
  rw [exec_of_givesStart (i := .start w) rfl]
  refine ⟨rfl, fun hb hfits => ?_, fun hb => ?_⟩
  · rw [startCommand_accepted hb (rangeOk_eq_true.2 hfits)]
    rfl
  · rw [startCommand_busy hb]

end Sys2Proof.Machine
end
